-- ==== Sys2Proof/Word.lean ====
section
/-! DEFINITION. The two word types of the machine (spec/00_scope.md R5, R7). Every value is an unsigned integer
of a stated width; the helpers that take words apart and put them together stand in `Decode.lean`. -/

namespace Sys2Proof

/-- `REG_WIDTH` and `BYTE` are 8 bits (R5): a general register, a byte of memory, an opcode. -/
abbrev Byte := BitVec 8

/-- `PAIR_WIDTH`, `PC_WIDTH` and `ADDR_WIDTH` are 16 bits (R5): a pair view, the program counter, an address. -/
abbrev Word := BitVec 16

end Sys2Proof
end

