-- ==== Sys2Proof/Config.lean ====
section
/-! DEFINITION. The operand names an encoding can select and the configuration a decoder takes: the prefix byte, the
reset value of pc, the two opcode tables and the format of a code string (spec/00_scope.md R5, spec/30_encoding.md R81 to
R91, spec/92_eei_decisions.md D2 to D5, D9, D25). The values this spec fixes are `Config.spec`, in `Decode.lean`. -/

namespace Sys2Proof

/-- The seven 8-bit general registers `b c d e h l a`, in the order of the field `rrr` (R20, R82). -/
inductive Reg8 where
  | b | c | d | e | h | l | a
deriving DecidableEq, Repr

/-- The three register pairs an instruction can name (R27, R83). -/
inductive Pair where
  | bc | de | hl
deriving DecidableEq, Repr

/-- The five condition selectors of the jump family (R84, R85, R120). -/
inductive Cond where
  | nz | z | nc | c | always
deriving DecidableEq, Repr

/-- What a table entry maps an opcode value to (R86): an instruction variant with no operand bytes
(`add`, `incPair`, `decPair`), or a jump that must still read its two target bytes (`jp`). -/
inductive Entry where
  | add (r : Reg8)
  | jp (k : Cond)
  | incPair (p : Pair)
  | decPair (p : Pair)
deriving DecidableEq, Repr

/-- The letter case of the hexadecimal digits A to F in a code string (R91, D9). -/
inductive LetterCase where
  | upper | lower
deriving DecidableEq, Repr

/-- The marker before the digits of a secondary opcode (R91, D9). -/
inductive CodeMarker where
  /-- The two hexadecimal digits of the prefix byte. -/
  | prefixDigits
  /-- A text of its own. -/
  | text (t : String)
deriving DecidableEq, Repr

/-- The format of the diagnostic's code string, which R5 lists as a parameter and D9 decides. -/
structure CodeFormat where
  /-- The letter case of the digits. -/
  letters : LetterCase
  /-- The text before a whole code, where a `0x` would stand. -/
  lead : String
  /-- The marker of a secondary opcode. -/
  marker : CodeMarker
deriving DecidableEq, Repr

/-- The parameters of R5 that the spec asks a model to hold as named configuration (D25), so that a claim can say
which values it assumes. The widths of R5 are the types `Byte` and `Word`. -/
structure Config where
  /-- `PREFIX_BYTE`: the first byte that sends the decoder to the secondary table. -/
  prefixByte : Byte
  /-- `RESET_PC`: the program counter after reset. -/
  resetPc : Word
  /-- The primary table: opcode value and entry. -/
  primary : List (Byte × Entry)
  /-- The secondary table: the byte after the prefix byte, and entry. -/
  secondary : List (Byte × Entry)
  /-- The format of a code string. -/
  code : CodeFormat
deriving DecidableEq, Repr

end Sys2Proof
end

