-- ==== Sys2Proof/Syntax.lean ====
section
/-! DEFINITION. The instructions: one constructor per row of spec/opcode_table.json, in the table's order. A register,
pair or condition operand is part of the opcode value (spec/30_encoding.md R82 to R84), so it is part of the
constructor; a jump carries its 16-bit target already assembled (R85, R87). -/

namespace Sys2Proof

/-- The 18 admitted instructions (R88) and the prefix row (R89). -/
inductive Instr where
  /-- `INC BC`, 0x03 (R131). -/
  | incBC
  /-- `DEC BC`, 0x0B (R134). -/
  | decBC
  /-- `INC DE`, 0x13 (R132). -/
  | incDE
  /-- `DEC DE`, 0x1B (R135). -/
  | decDE
  /-- `INC HL`, 0x23 (R133). -/
  | incHL
  /-- `DEC HL`, 0x2B (R136). -/
  | decHL
  /-- `ADD A,B`, 0x80 (R111). -/
  | addAB
  /-- `ADD A,C`, 0x81 (R112). -/
  | addAC
  /-- `ADD A,D`, 0x82 (R113). -/
  | addAD
  /-- `ADD A,E`, 0x83 (R114). -/
  | addAE
  /-- `ADD A,H`, 0x84 (R115). -/
  | addAH
  /-- `ADD A,L`, 0x85 (R116). -/
  | addAL
  /-- `ADD A,A`, 0x87 (R117). -/
  | addAA
  /-- `JP NZ,a16`, 0xC2 (R121). -/
  | jpNZ (target : Word)
  /-- `JP a16`, 0xC3 (R125). -/
  | jp (target : Word)
  /-- `JP Z,a16`, 0xCA (R122). -/
  | jpZ (target : Word)
  /-- `PREFIX CB`, 0xCB: the prefix byte and a secondary opcode with no entry (R89). -/
  | prefixCB (sub : Byte)
  /-- `JP NC,a16`, 0xD2 (R123). -/
  | jpNC (target : Word)
  /-- `JP C,a16`, 0xDA (R124). -/
  | jpC (target : Word)
deriving DecidableEq, Repr

end Sys2Proof
end

