-- ==== Sys2Proof/Decode.lean ====
section
/-! DEFINITION. The opcode tables and their values, the decoder, the code string of an unknown opcode, the length
function, the encoder and the assembler text (spec/30_encoding.md). -/

namespace Sys2Proof

/-! ## Taking words apart and putting them together (R7, R55) -/

/-- `hi8(v)` is `v[15:8]` (R7). -/
def hi8 (v : Word) : Byte := v.extractLsb' 8 8

/-- `lo8(v)` is `v[7:0]` (R7). -/
def lo8 (v : Word) : Byte := v.extractLsb' 0 8

/-- `hi : lo`, the 16-bit value `hi * 256 + lo` (R7). -/
def join (hi lo : Byte) : Word := BitVec.ofNat 16 (hi.toNat * 256 + lo.toNat)

/-! ## The tables and the configuration of this spec (R88, R89, D25) -/

/-- The primary table of R88: exactly these 18 entries. The values 0x81 and 0xC2 are the source's; the other 16 are
PRESUMED from the console's processor (D4; log entry 5). -/
def primaryTable : List (Byte × Entry) :=
  [(0x03, .incPair .bc), (0x0B, .decPair .bc), (0x13, .incPair .de), (0x1B, .decPair .de),
   (0x23, .incPair .hl), (0x2B, .decPair .hl),
   (0x80, .add .b), (0x81, .add .c), (0x82, .add .d), (0x83, .add .e), (0x84, .add .h), (0x85, .add .l),
   (0x87, .add .a),
   (0xC2, .jp .nz), (0xC3, .jp .always), (0xCA, .jp .z), (0xD2, .jp .nc), (0xDA, .jp .c)]

/-- The secondary table of R89: empty (D5; log entry 7). -/
def secondaryTable : List (Byte × Entry) := []

/-- The code string format of R91: upper case, no `0x`, the prefix byte's own digits as the marker. All three are the
spec's decision D9 (log entry 8). -/
def CodeFormat.spec : CodeFormat where
  letters := .upper
  lead := ""
  marker := .prefixDigits

/-- The values this spec fixes (R5). `prefixByte` is PRESUMED (D3; log entry 4); `resetPc` (D2; log entry 6) and `code`
(D9; log entry 8) are each a DESIGN CHOICE of the spec. -/
def Config.spec : Config where
  prefixByte := 0xCB
  resetPc := 0x0000
  primary := primaryTable
  secondary := secondaryTable
  code := CodeFormat.spec

/-! ## The code string of an unknown opcode (R91) -/

/-- The sixteen hexadecimal digits in each letter case. -/
def hexDigits (k : LetterCase) : List Char :=
  match k with
  | .upper => ['0', '1', '2', '3', '4', '5', '6', '7', '8', '9', 'A', 'B', 'C', 'D', 'E', 'F']
  | .lower => ['0', '1', '2', '3', '4', '5', '6', '7', '8', '9', 'a', 'b', 'c', 'd', 'e', 'f']

/-- The digit of `v[7:4]`, then the digit of `v[3:0]`. -/
def hexChars (k : LetterCase) (v : Byte) : List Char :=
  [(hexDigits k).getD (v.toNat / 16) '0', (hexDigits k).getD (v.toNat % 16) '0']

/-- The two hexadecimal digits of a byte. -/
def hexByte (k : LetterCase) (v : Byte) : String := String.ofList (hexChars k v)

/-- `hex2(v)` as R91 defines it: two characters, in upper case (D9; log entry 8). -/
def hex2 (v : Byte) : String := hexByte .upper v

/-- The text of a marker (R91). -/
def markerText (cfg : Config) : String :=
  match cfg.code.marker with
  | .prefixDigits => hexByte cfg.code.letters cfg.prefixByte
  | .text t => t

/-- The code of a primary opcode: `hex2(op)` in this spec's format (R91). -/
def primaryCode (cfg : Config) (op : Byte) : String := cfg.code.lead ++ hexByte cfg.code.letters op

/-- The code of a secondary opcode: `hex2(PREFIX_BYTE) ++ hex2(sub)` in this spec's format (R91). -/
def secondaryCode (cfg : Config) (sub : Byte) : String :=
  cfg.code.lead ++ (markerText cfg ++ hexByte cfg.code.letters sub)

/-! ## The decoder (R85 to R87) -/

/-- `Failure(UnknownOpcode(code))`, the only error kind of the decoder (R85, R160). Raised by `decodeRow` for a first
byte with no entry and by `decode` for a prefixed opcode too; safe: the machine stops instead of guessing a meaning. -/
inductive DecodeFailure where
  | unknownOpcode (code : String)
deriving DecidableEq, Repr

/-- The instruction of an entry that needs no operand bytes, or of a jump entry once `target` is assembled
(R85, R86). -/
def Entry.instr (e : Entry) (target : Word) : Instr :=
  match e with
  | .add .b => .addAB
  | .add .c => .addAC
  | .add .d => .addAD
  | .add .e => .addAE
  | .add .h => .addAH
  | .add .l => .addAL
  | .add .a => .addAA
  | .jp .nz => .jpNZ target
  | .jp .z => .jpZ target
  | .jp .nc => .jpNC target
  | .jp .c => .jpC target
  | .jp .always => .jp target
  | .incPair .bc => .incBC
  | .incPair .de => .incDE
  | .incPair .hl => .incHL
  | .decPair .bc => .decBC
  | .decPair .de => .decDE
  | .decPair .hl => .decHL

/-- The row the bytes hold, the prefix row included. `rd k` is the byte at the instruction's address plus `k`, so the
decoder is total on any bytes. The prefix test comes first and the prefix byte is never looked up in the primary
table (R86); a target is read low byte first, right after the opcode (R87). -/
def decodeRow (cfg : Config) (rd : Nat → Byte) : Except DecodeFailure Instr :=
  if rd 0 = cfg.prefixByte then
    match cfg.secondary.lookup (rd 1) with
    | none => .ok (.prefixCB (rd 1))
    | some e => .ok (e.instr (join (rd 3) (rd 2)))
  else
    match cfg.primary.lookup (rd 0) with
    | none => .error (.unknownOpcode (primaryCode cfg (rd 0)))
    | some e => .ok (e.instr (join (rd 2) (rd 1)))

/-- What R86's `Decode` answers for a row: the prefix row is the failure with the secondary opcode's code, every
other row is the instruction. -/
def Instr.decoded (cfg : Config) (i : Instr) : Except DecodeFailure Instr :=
  match i with
  | .prefixCB sub => .error (.unknownOpcode (secondaryCode cfg sub))
  | i => .ok i

/-- `Decode` of R86 on the bytes `rd`: `Ok` of an admitted instruction or a failure with its code. -/
def decode (cfg : Config) (rd : Nat → Byte) : Except DecodeFailure Instr :=
  match decodeRow cfg rd with
  | .error f => .error f
  | .ok i => i.decoded cfg

/-- How many bytes `Decode` reads from its address on (R99): one for an unknown primary opcode or a 1-byte
instruction, two for a prefix, three for a jump (D10; log entry 20). A secondary entry, were there one, would be read
after the prefix byte (R86). -/
def decodeReads (cfg : Config) (rd : Nat → Byte) : Nat :=
  if rd 0 = cfg.prefixByte then
    match cfg.secondary.lookup (rd 1) with
    | some (.jp _) => 4
    | _ => 2
  else
    match cfg.primary.lookup (rd 0) with
    | some (.jp _) => 3
    | _ => 1

/-- The decoder on a list of bytes, as the bytes of memory from an address on; what lies past the list reads 0x00. -/
def decodeBytes (bs : List Byte) : Except DecodeFailure Instr := decodeRow Config.spec (fun k => bs.getD k 0)

/-- Byte `k` of an instruction whose bits are `w`, numbered as spec/opcode_table.json numbers them; every bit from
`nbits` up is 0. -/
def tableByte (nbits w k : Nat) : Byte := BitVec.ofNat 8 ((w % 2 ^ nbits) / 2 ^ (8 * k))

/-- The instruction the decoder reads from an instruction whose bits are `w`, laid out first byte lowest. -/
def decodeTableWord (nbits w : Nat) : Option Instr :=
  match decodeRow Config.spec (tableByte nbits w) with
  | .ok i => some i
  | .error _ => none

/-! ## The length (R80, R94) -/

/-- `len`, total over every constructor. The length of the prefix row is D12's and no rule uses it
(log entry 22). -/
def Instr.len (i : Instr) : Nat :=
  match i with
  | .incBC | .decBC | .incDE | .decDE | .incHL | .decHL => 1
  | .addAB | .addAC | .addAD | .addAE | .addAH | .addAL | .addAA => 1
  | .jpNZ _ | .jp _ | .jpZ _ | .jpNC _ | .jpC _ => 3
  | .prefixCB _ => 2

/-! ## The encoder -/

/-- The table entry an instruction stands for; the prefix row stands for none. -/
def Instr.entry (i : Instr) : Option Entry :=
  match i with
  | .incBC => some (.incPair .bc)
  | .decBC => some (.decPair .bc)
  | .incDE => some (.incPair .de)
  | .decDE => some (.decPair .de)
  | .incHL => some (.incPair .hl)
  | .decHL => some (.decPair .hl)
  | .addAB => some (.add .b)
  | .addAC => some (.add .c)
  | .addAD => some (.add .d)
  | .addAE => some (.add .e)
  | .addAH => some (.add .h)
  | .addAL => some (.add .l)
  | .addAA => some (.add .a)
  | .jpNZ _ => some (.jp .nz)
  | .jp _ => some (.jp .always)
  | .jpZ _ => some (.jp .z)
  | .prefixCB _ => none
  | .jpNC _ => some (.jp .nc)
  | .jpC _ => some (.jp .c)

/-- The bytes after the first: a target low byte first (R81, R87), or the secondary opcode. -/
def Instr.operandBytes (i : Instr) : List Byte :=
  match i with
  | .incBC | .decBC | .incDE | .decDE | .incHL | .decHL => []
  | .addAB | .addAC | .addAD | .addAE | .addAH | .addAL | .addAA => []
  | .jpNZ t | .jp t | .jpZ t | .jpNC t | .jpC t => [lo8 t, hi8 t]
  | .prefixCB sub => [sub]

/-- The first opcode value a table gives an entry. -/
def opcodeOf (t : List (Byte × Entry)) (e : Entry) : Option Byte :=
  match t with
  | [] => none
  | (op, e') :: rest => if e' = e then some op else opcodeOf rest e

/-- The bytes of an instruction, first byte first (R81, R88); `none` where the configuration's primary table gives its
entry no opcode value. -/
def encode (cfg : Config) (i : Instr) : Option (List Byte) :=
  match i.entry with
  | none => some (cfg.prefixByte :: i.operandBytes)
  | some e => (opcodeOf cfg.primary e).map (· :: i.operandBytes)

/-! ## The assembler text (R96) -/

/-- A 16-bit number written with `0x` and four digits (R96). -/
def hexWord (v : Word) : String := "0x" ++ hex2 (hi8 v) ++ hex2 (lo8 v)

/-- The conventional assembler text of R96, destination first (D19; log entry 19). The prefix row is written as the
table's own name for it and its secondary opcode. -/
def Instr.asmText (i : Instr) : String :=
  match i with
  | .incBC => "INC BC"
  | .decBC => "DEC BC"
  | .incDE => "INC DE"
  | .decDE => "DEC DE"
  | .incHL => "INC HL"
  | .decHL => "DEC HL"
  | .addAB => "ADD A,B"
  | .addAC => "ADD A,C"
  | .addAD => "ADD A,D"
  | .addAE => "ADD A,E"
  | .addAH => "ADD A,H"
  | .addAL => "ADD A,L"
  | .addAA => "ADD A,A"
  | .jpNZ t => "JP NZ," ++ hexWord t
  | .jp t => "JP " ++ hexWord t
  | .jpZ t => "JP Z," ++ hexWord t
  | .prefixCB sub => "PREFIX CB " ++ hex2 sub
  | .jpNC t => "JP NC," ++ hexWord t
  | .jpC t => "JP C," ++ hexWord t

end Sys2Proof
end

