-- ==== Sys2Proof/Machine/State.lean ====
section
/-! DEFINITION. The whole state of the block (spec/10_state.md): seven 8-bit registers, four flags, the program
counter, 65,536 bytes of memory and the fault latch. Then the reasons a step can stop, and the state after reset. -/

namespace Sys2Proof.Machine

/-- The seven general registers (R20). They are independent; none is hard-wired. The pairs are views of them and are
not stored (R27). -/
structure RegFile where
  a : Byte
  b : Byte
  c : Byte
  d : Byte
  e : Byte
  h : Byte
  l : Byte
deriving DecidableEq, Repr

/-- The flags, four independent booleans, in their canonical form (R22, R23). The eighth register `f` is a view of them
and is not stored (R21). -/
structure Flags where
  /-- zero -/
  z : Bool
  /-- subtract -/
  n : Bool
  /-- half-carry -/
  h : Bool
  /-- carry -/
  c : Bool
deriving DecidableEq, Repr

/-- Memory (R50): the listed addresses and their bytes; every other address reads as `unlistedByte`. -/
abbrev Memory := List Host.Cell

/-- What an unlisted address reads as: 0x00, the reset contents of every byte (R34). -/
def unlistedByte : Byte := 0x00

/-- `MEM_SIZE` (R5, R50): addresses 0x0000 to 0xFFFF inclusive. -/
def memSize : Nat := 65536

/-- The cells from address `lo` on are in canonical form: addresses strictly rising and inside the address space, no
cell equal to what an unlisted address reads as. -/
def Memory.wfFrom (lo : Nat) : Memory → Bool
  | [] => true
  | (k, v) :: rest => decide (lo ≤ k) && decide (k < memSize) && (v != unlistedByte) && wfFrom (k + 1) rest

/-- The canonical form of memory: equal memories are equal lists. -/
def Memory.wf (m : Memory) : Bool := wfFrom 0 m

/-- Why a step is fatal: the closed list of R160. -/
inductive FatalReason where
  /-- The byte at `pc` has no primary entry and is not the prefix byte, or it is the prefix byte and the next byte has
  no secondary entry; `code` is the code string of R91. Raised by `step` and by the prefix row; safe. -/
  | unknownOpcode (code : String)
  /-- A decoded instruction has no dispatch arm; carries nothing (R162). Raised by nothing: every constructor has its
  arm (R141, R142; log entry 14); safe. -/
  | undispatched
deriving DecidableEq, Repr

/-- The state of the block. -/
structure State where
  /-- The register file (R20). -/
  regs : RegFile
  /-- The flags (R22). -/
  fl : Flags
  /-- The program counter: the address of the next instruction's first byte (R29). -/
  pc : Word
  /-- The memory (R50). -/
  mem : Memory
  /-- The fault latch: `none`, or the reason of the fatal stop (R32). -/
  fatal : Option FatalReason
deriving DecidableEq, Repr

/-- Why no next state exists. -/
inductive Fault where
  /-- A step was asked of a block whose fault latch is set: it takes no step (R145). Raised by `step`, before anything
  is fetched; safe: the stopped state is terminal (log entry 2). -/
  | stopped (reason : FatalReason)
deriving DecidableEq, Repr

/-- Why an instruction has no meaning in this model. -/
inductive Refusal where
  /-- The instruction of that mnemonic has no meaning yet. Raised by no arm: every row of the opcode table has its
  meaning; safe. -/
  | notModelled (mnemonic : String)
deriving DecidableEq, Repr

/-- All seven registers at 0x00 (R34). -/
def RegFile.zero : RegFile := ⟨0, 0, 0, 0, 0, 0, 0⟩

/-- All four flags false (R34). -/
def Flags.clear : Flags := ⟨false, false, false, false⟩

/-- The state after reset (R34, R180): registers 0x00, flags false, every byte of memory 0x00, `pc = RESET_PC`, no
fatal stop. -/
def State.reset : State where
  regs := RegFile.zero
  fl := Flags.clear
  pc := Config.spec.resetPc
  mem := []
  fatal := none

end Sys2Proof.Machine
end

