-- ==== Sys2Proof/Machine/Ops.lean ====
section
/-! DEFINITION. The named operations over memory, the program counter and the fault latch: `MemRead` and `MemWrite`
(spec/20_memory.md), the advance of pc (spec/10_state.md R30), the bytes an instruction is read from, and the entry to
the fatal stop (spec/60_exceptions.md R166). -/

namespace Sys2Proof.Machine

/-! ## Memory -/

/-- The byte listed for address `k`, or what an unlisted address reads as. -/
def cellAt (k : Nat) : Memory → Byte
  | [] => unlistedByte
  | (k', v) :: rest => if k' = k then v else cellAt k rest

/-- `MemRead(addr, 1)` (R51): always succeeds and has no side effect. -/
def Memory.read (m : Memory) (addr : Word) : Byte := cellAt addr.toNat m

/-- A cell to list in front of `rest`, unless it holds what an unlisted address reads as. -/
def consCell (k : Nat) (v : Byte) (rest : Memory) : Memory :=
  if v = unlistedByte then rest else (k, v) :: rest

/-- Put byte `v` at address `k`, keeping the cells in rising order. -/
def putCell (k : Nat) (v : Byte) : Memory → Memory
  | [] => consCell k v []
  | (k', v') :: rest =>
    if k < k' then consCell k v ((k', v') :: rest)
    else if k = k' then consCell k v rest
    else (k', v') :: putCell k v rest

/-- `MemWrite(addr, 1, v)` (R52): changes that byte and no other; no address is protected. -/
def Memory.write (m : Memory) (addr : Word) (v : Byte) : Memory := putCell addr.toNat v m

/-- `MemRead(addr, 2)` (R53): low byte at `addr`, high byte at `addr +16 1`, which wraps at the top of memory. -/
def Memory.readWord (m : Memory) (addr : Word) : Word := join (m.read (addr + 1)) (m.read addr)

/-- Bytes written one after another from `addr` on, each by `MemWrite(addr, 1, v)` (R54, R183). -/
def Memory.writeBytes (m : Memory) (addr : Word) : List Byte → Memory
  | [] => m
  | v :: rest => writeBytes (m.write addr v) (addr + 1) rest

/-! ## The bytes of an instruction (R64, R86) -/

/-- The byte `k` past `addr`, the address wrapping at 65,536: what the decoder reads from. -/
def bytesAt (m : Memory) (addr : Word) (k : Nat) : Byte := m.read (addr + BitVec.ofNat 16 k)

/-- The row the bytes at `addr` hold. It reads memory and nothing else (R92). -/
def rowAt (cfg : Config) (m : Memory) (addr : Word) : Except DecodeFailure Instr := decodeRow cfg (bytesAt m addr)

/-- `Decode(addr)` of R86: a pure function of memory and address, which a tool may call freely (R92, R164). -/
def decodeAt (cfg : Config) (m : Memory) (addr : Word) : Except DecodeFailure Instr := decode cfg (bytesAt m addr)

/-- The addresses `Decode(addr)` reads, exactly (R99). -/
def readsAt (cfg : Config) (m : Memory) (addr : Word) : List Word :=
  (List.range (decodeReads cfg (bytesAt m addr))).map (fun k => addr + BitVec.ofNat 16 k)

/-! ## Updates of the state, and the fatal stop -/

/-- `pc <- t`. -/
def State.setPc (t : Word) (s : State) : State := { s with pc := t }

/-- Replace the register file. -/
def State.setRegs (r : RegFile) (s : State) : State := { s with regs := r }

/-- Replace the flags. -/
def State.setFl (fl : Flags) (s : State) : State := { s with fl := fl }

/-- Replace the memory. -/
def State.setMem (m : Memory) (s : State) : State := { s with mem := m }

/-- `pc <- pc +16 n` (R30): wraps at the top of the address space. -/
def State.advance (n : Nat) (s : State) : State := s.setPc (s.pc + BitVec.ofNat 16 n)

/-- ENTRY TO THE FATAL STOP, `raise Fatal(reason)` (R32, R166): the latch is set and nothing else changes; nothing is
saved, there is no handler and no vector. No instruction returns from it (R168); only reset clears the latch (R182). -/
def State.raiseFatal (reason : FatalReason) (s : State) : State := { s with fatal := some reason }

/-- The fatal reason a decoder failure turns into: `Step` makes the returned failure fatal (R140, R164). -/
def failureReason (f : DecodeFailure) : FatalReason :=
  match f with
  | .unknownOpcode code => .unknownOpcode code

/-- The diagnostic output (R6 d, R161): the failure kind and, for an unknown opcode, its code string. -/
def State.diagnostic (s : State) : Option FatalReason := s.fatal

/-- Place an instruction whose bits are `w` (numbered as the opcode table numbers them, zero from `nbits` up) at `pc`,
up to the longest instruction's three bytes. -/
def State.placeWord (s : State) (nbits w : Nat) : State :=
  s.setMem (s.mem.writeBytes s.pc [tableByte nbits w 0, tableByte nbits w 1, tableByte nbits w 2])

end Sys2Proof.Machine
end

