-- ==== Sys2Proof/Machine/Flags.lean ====
section
/-! DEFINITION. The packed byte of the flags (spec/10_state.md R24, R25) and the one flag computation of the machine,
`Add8` (spec/40_arith_accumulate.md R110). -/

namespace Sys2Proof.Machine

/-- `FlagsEncode(fl)`: bit 7 zero, bit 6 subtract, bit 5 half-carry, bit 4 carry, low nibble zero (R24). -/
def flagsEncode (fl : Flags) : Byte :=
  (if fl.z then 0x80 else 0) ||| (if fl.n then 0x40 else 0) ||| (if fl.h then 0x20 else 0)
    ||| (if fl.c then 0x10 else 0)

/-- `FlagsDecode(v)`: the low nibble is ignored (R25). -/
def flagsDecode (v : Byte) : Flags where
  z := v.getLsbD 7
  n := v.getLsbD 6
  h := v.getLsbD 5
  c := v.getLsbD 4

/-- `v[3:0]`. -/
def lowNibble (v : Byte) : BitVec 4 := v.extractLsb' 0 4

/-- `Add8(x, y)` of R110: the 9-bit sum is taken without wrap, the result is its low 8 bits, and all four flags are
given whatever they were. -/
def add8 (x y : Byte) : Byte × Flags :=
  let sum9 : BitVec 9 := x.zeroExtend 9 + y.zeroExtend 9
  let result : Byte := sum9.extractLsb' 0 8
  (result,
    { z := result == 0
      n := false
      h := decide (0xF < (lowNibble x).toNat + (lowNibble y).toNat)
      c := decide (0xFF < sum9.toNat) })

end Sys2Proof.Machine
end

