-- ==== Sys2Proof/Machine/Operands.lean ====
section
/-! DEFINITION. Every operand form of the machine: the 8-bit registers (spec/10_state.md R20), the register `f` as a
byte (R21), the pair views and the host's `af` view (R27), the conditions of the jumps (spec/41_jump_absolute.md
R120), and the three shared operations the meanings are made of (R110, R120, R130). -/

namespace Sys2Proof.Machine

/-! ## Registers -/

/-- `x[r]` (R8, R20). -/
def RegFile.get (rf : RegFile) (r : Reg8) : Byte :=
  match r with
  | .a => rf.a
  | .b => rf.b
  | .c => rf.c
  | .d => rf.d
  | .e => rf.e
  | .h => rf.h
  | .l => rf.l

/-- `x[r] <- v` (R8, R20): no other register changes. -/
def RegFile.set (rf : RegFile) (r : Reg8) (v : Byte) : RegFile :=
  match r with
  | .a => { rf with a := v }
  | .b => { rf with b := v }
  | .c => { rf with c := v }
  | .d => { rf with d := v }
  | .e => { rf with e := v }
  | .h => { rf with h := v }
  | .l => { rf with l := v }

/-- The first-named register of a pair: the upper byte (R27). -/
def highReg (p : Pair) : Reg8 :=
  match p with
  | .bc => .b
  | .de => .d
  | .hl => .h

/-- The second-named register of a pair: the lower byte (R27). -/
def lowReg (p : Pair) : Reg8 :=
  match p with
  | .bc => .c
  | .de => .e
  | .hl => .l

/-- `pair[p]` (R27): composed from the two registers; the pair has no storage of its own. -/
def RegFile.getPair (rf : RegFile) (p : Pair) : Word := join (rf.get (highReg p)) (rf.get (lowReg p))

/-- `pair[p] <- v` (R27): `hi8(v)` to the first-named register and `lo8(v)` to the second. -/
def RegFile.setPair (rf : RegFile) (p : Pair) (v : Word) : RegFile :=
  (rf.set (highReg p) (hi8 v)).set (lowReg p) (lo8 v)

/-- The register `f` read as a byte (R21). -/
def State.readF (s : State) : Byte := flagsEncode s.fl

/-- The register `f` written as a byte (R21): bits 3 to 0 are dropped. -/
def State.writeF (v : Byte) (s : State) : State := s.setFl (flagsDecode v)

/-- `pair[af]`, for the host port only (R27; log entry 9). -/
def State.readAF (s : State) : Word := join s.regs.a (flagsEncode s.fl)

/-- `pair[af] <- v`, for the host port only (R27; log entry 9). -/
def State.writeAF (v : Word) (s : State) : State :=
  (s.setRegs (s.regs.set .a (hi8 v))).setFl (flagsDecode (lo8 v))

/-! ## Conditions -/

/-- `Cond(k, fl)` (R120), on the flags as they are when the step begins. -/
def evalCond (k : Cond) (fl : Flags) : Bool :=
  match k with
  | .nz => !fl.z
  | .z => fl.z
  | .nc => !fl.c
  | .c => fl.c
  | .always => true

/-! ## The shared operations of the three families -/

/-- `ADD A,r` (R110): the accumulator and all four flags from `Add8` of the values before the step, then pc on by 1. -/
def State.addAccum (r : Reg8) (s : State) : State :=
  let sum := add8 (s.regs.get .a) (s.regs.get r)
  ((s.setRegs (s.regs.set .a sum.1)).setFl sum.2).advance 1

/-- The jump family (R120): pc becomes the target, or goes on by 3, and nothing else changes. -/
def State.jumpIf (k : Cond) (target : Word) (s : State) : State :=
  s.setPc (if evalCond k s.fl then target else s.pc + 3)

/-- `INC rr` (R130): the pair plus 1 with wraparound, no flag, pc on by 1. -/
def State.incPair (p : Pair) (s : State) : State :=
  (s.setRegs (s.regs.setPair p (s.regs.getPair p + 1))).advance 1

/-- `DEC rr` (R130): the pair minus 1 with wraparound, no flag, pc on by 1. -/
def State.decPair (p : Pair) (s : State) : State :=
  (s.setRegs (s.regs.setPair p (s.regs.getPair p - 1))).advance 1

end Sys2Proof.Machine
end

