-- ==== Sys2Proof/Machine/Arith.lean ====
section
/-! DEFINITION. The meanings of the arithmetic-accumulate family (spec/40_arith_accumulate.md R111 to R117). -/

namespace Sys2Proof.Machine

/-- `ADD A,B` (R111). -/
def execAddAB (s : State) : Host.Outcome State Fault Refusal := .next (s.addAccum .b)

/-- `ADD A,C` (R112). -/
def execAddAC (s : State) : Host.Outcome State Fault Refusal := .next (s.addAccum .c)

/-- `ADD A,D` (R113). -/
def execAddAD (s : State) : Host.Outcome State Fault Refusal := .next (s.addAccum .d)

/-- `ADD A,E` (R114). -/
def execAddAE (s : State) : Host.Outcome State Fault Refusal := .next (s.addAccum .e)

/-- `ADD A,H` (R115). -/
def execAddAH (s : State) : Host.Outcome State Fault Refusal := .next (s.addAccum .h)

/-- `ADD A,L` (R116). -/
def execAddAL (s : State) : Host.Outcome State Fault Refusal := .next (s.addAccum .l)

/-- `ADD A,A` (R117). -/
def execAddAA (s : State) : Host.Outcome State Fault Refusal := .next (s.addAccum .a)

end Sys2Proof.Machine
end

