-- ==== Sys2Proof/Machine/Jump.lean ====
section
/-! DEFINITION. The meanings of the conditional absolute jump family (spec/41_jump_absolute.md R121 to R125). -/

namespace Sys2Proof.Machine

/-- `JP NZ,a16` (R121). -/
def execJpNZ (target : Word) (s : State) : Host.Outcome State Fault Refusal := .next (s.jumpIf .nz target)

/-- `JP Z,a16` (R122). -/
def execJpZ (target : Word) (s : State) : Host.Outcome State Fault Refusal := .next (s.jumpIf .z target)

/-- `JP NC,a16` (R123). -/
def execJpNC (target : Word) (s : State) : Host.Outcome State Fault Refusal := .next (s.jumpIf .nc target)

/-- `JP C,a16` (R124). -/
def execJpC (target : Word) (s : State) : Host.Outcome State Fault Refusal := .next (s.jumpIf .c target)

/-- `JP a16` (R125). -/
def execJp (target : Word) (s : State) : Host.Outcome State Fault Refusal := .next (s.jumpIf .always target)

end Sys2Proof.Machine
end

