-- ==== Sys2Proof/Machine/PairIncDec.lean ====
section
/-! DEFINITION. The meanings of the 16-bit pair increment and decrement family (spec/42_pair_incdec.md R131 to R136). -/

namespace Sys2Proof.Machine

/-- `INC BC` (R131). -/
def execIncBC (s : State) : Host.Outcome State Fault Refusal := .next (s.incPair .bc)

/-- `INC DE` (R132). -/
def execIncDE (s : State) : Host.Outcome State Fault Refusal := .next (s.incPair .de)

/-- `INC HL` (R133). -/
def execIncHL (s : State) : Host.Outcome State Fault Refusal := .next (s.incPair .hl)

/-- `DEC BC` (R134). -/
def execDecBC (s : State) : Host.Outcome State Fault Refusal := .next (s.decPair .bc)

/-- `DEC DE` (R135). -/
def execDecDE (s : State) : Host.Outcome State Fault Refusal := .next (s.decPair .de)

/-- `DEC HL` (R136). -/
def execDecHL (s : State) : Host.Outcome State Fault Refusal := .next (s.decPair .hl)

end Sys2Proof.Machine
end

