-- ==== Sys2Proof/Machine/Prefixed.lean ====
section
/-! DEFINITION. The meanings of the prefix row (spec/30_encoding.md R89, R91). -/

namespace Sys2Proof.Machine

/-- The prefix byte and a secondary opcode with no entry (R89): the step is fatal with the secondary code, `pc` stays at
the prefix byte, and only the latch changes (R140, R166). -/
def execPrefixCB (sub : Byte) (s : State) : Host.Outcome State Fault Refusal :=
  .next (s.raiseFatal (.unknownOpcode (secondaryCode Config.spec sub)))

end Sys2Proof.Machine
end

