-- ==== Sys2Proof/Machine/Dispatch.lean ====
section
/-! DEFINITION. The dispatcher: one arm per constructor of Instr, with no default arm (spec/43_step_and_dispatch.md
R141). -/

namespace Sys2Proof.Machine

def exec (i : Instr) (s : State) : Host.Outcome State Fault Refusal :=
  match i with
  | .incBC => Sys2Proof.Machine.execIncBC s
  | .decBC => Sys2Proof.Machine.execDecBC s
  | .incDE => Sys2Proof.Machine.execIncDE s
  | .decDE => Sys2Proof.Machine.execDecDE s
  | .incHL => Sys2Proof.Machine.execIncHL s
  | .decHL => Sys2Proof.Machine.execDecHL s
  | .addAB => Sys2Proof.Machine.execAddAB s
  | .addAC => Sys2Proof.Machine.execAddAC s
  | .addAD => Sys2Proof.Machine.execAddAD s
  | .addAE => Sys2Proof.Machine.execAddAE s
  | .addAH => Sys2Proof.Machine.execAddAH s
  | .addAL => Sys2Proof.Machine.execAddAL s
  | .addAA => Sys2Proof.Machine.execAddAA s
  | .jpNZ target => Sys2Proof.Machine.execJpNZ target s
  | .jp target => Sys2Proof.Machine.execJp target s
  | .jpZ target => Sys2Proof.Machine.execJpZ target s
  | .prefixCB sub => Sys2Proof.Machine.execPrefixCB sub s
  | .jpNC target => Sys2Proof.Machine.execJpNC target s
  | .jpC target => Sys2Proof.Machine.execJpC target s

end Sys2Proof.Machine
end

