-- ==== Sys2Proof/Machine/Step.lean ====
section
/-! DEFINITION. The cycle driver (spec/43_step_and_dispatch.md R140): one step is one fetch, decode and dispatch. -/

namespace Sys2Proof.Machine

/-- `Step(s)` (R140, R143, R145). A block whose latch is set takes no step. Otherwise the row at `pc` is read afresh
from memory; a decoder failure becomes the fatal stop, and a decoded row is dispatched. -/
def step (s : State) : Host.Outcome State Fault Refusal :=
  match s.fatal with
  | some reason => .fault (.stopped reason)
  | none =>
    match rowAt Config.spec s.mem s.pc with
    | .error f => .next (s.raiseFatal (failureReason f))
    | .ok i => exec i s

/-- The state with an instruction's bytes stored where `step` fetches its next instruction, at `pc`; nothing else
changes, the latch neither (log entry 11). -/
def State.withFetchWord (s : State) (nbits w : Nat) : State := s.placeWord nbits w

end Sys2Proof.Machine
end

