-- ==== Sys2Proof/Machine/Port.lean ====
section
/-! DEFINITION. The interfaces of the block as atomic transactions (spec/00_scope.md R6): the host access port
(spec/10_state.md R35), the step request, and reset (spec/70_reset_and_hazards.md R180). A host acts between steps
only (R60, R187); the loader is a host that writes memory (R183). -/

namespace Sys2Proof.Machine

/-- What a host may ask between steps (R35): each register, `f` as a byte, the flags as a set, each pair and `af`, the
program counter and memory, each read or written, and the diagnostic output read (R6 d). -/
inductive PortRequest where
  | readReg (r : Reg8)
  | writeReg (r : Reg8) (v : Byte)
  | readF
  | writeF (v : Byte)
  | readFlags
  | writeFlags (fl : Flags)
  | readPair (p : Pair)
  | writePair (p : Pair) (v : Word)
  | readAF
  | writeAF (v : Word)
  | readPc
  | writePc (v : Word)
  | readMem (addr : Word)
  | writeMem (addr : Word) (v : Byte)
  | readDiagnostic
deriving DecidableEq, Repr

/-- What the port answers. -/
inductive PortReply where
  | byte (v : Byte)
  | word (v : Word)
  | flags (fl : Flags)
  | diagnostic (d : Option FatalReason)
  | done
deriving DecidableEq, Repr

/-- What a request answers: a read gives the value, a write gives `done`. -/
def portReply (q : PortRequest) (s : State) : PortReply :=
  match q with
  | .readReg r => .byte (s.regs.get r)
  | .readF => .byte s.readF
  | .readFlags => .flags s.fl
  | .readPair p => .word (s.regs.getPair p)
  | .readAF => .word s.readAF
  | .readPc => .word s.pc
  | .readMem addr => .byte (s.mem.read addr)
  | .readDiagnostic => .diagnostic s.diagnostic
  | .writeReg _ _ | .writeF _ | .writeFlags _ | .writePair _ _ | .writeAF _ | .writePc _ | .writeMem _ _ => .done

/-- The state after a request (R35): a read changes nothing, a write changes the one thing it names. No request
touches the fault latch, so a host cannot restart a stopped block (R168; log entry 23). -/
def portEffect (q : PortRequest) (s : State) : State :=
  match q with
  | .writeReg r v => s.setRegs (s.regs.set r v)
  | .writeF v => s.writeF v
  | .writeFlags fl => s.setFl fl
  | .writePair p v => s.setRegs (s.regs.setPair p v)
  | .writeAF v => s.writeAF v
  | .writePc v => s.setPc v
  | .writeMem addr v => s.setMem (s.mem.write addr v)
  | .readReg _ | .readF | .readFlags | .readPair _ | .readAF | .readPc | .readMem _ | .readDiagnostic => s

/-- What can happen to the block from outside (R6, R165, R180): nothing else ever does. -/
inductive Transaction where
  /-- The driver asks for one step. -/
  | step
  /-- A host uses the access port. -/
  | port (q : PortRequest)
  /-- Reset, the construction of a CPU: the only way out of a fatal stop (R182). -/
  | reset
deriving DecidableEq, Repr

/-- The block after one transaction. -/
def transact (t : Transaction) (s : State) : Host.Outcome State Fault Refusal :=
  match t with
  | .step => step s
  | .port q => .next (portEffect q s)
  | .reset => .next State.reset

/-- The block after a sequence of transactions, in order, up to the first that has no next state (R61: a host access made
between two steps is ordered after the one and before the other). -/
def transactAll : List Transaction → State → Host.Outcome State Fault Refusal
  | [], s => .next s
  | t :: rest, s =>
    match transact t s with
    | .next s' => transactAll rest s'
    | .fault f => .fault f
    | .refused r => .refused r

/-- What a loader does (R183): it writes the bytes of an image one after another from `base` on. Where the image goes is
the loader's business (R58), so `base` and `image` are arguments.
DESIGN CHOICE (log entry 24): an image that runs past the top of memory goes on at 0x0000, and one longer than 65,536 bytes
so overwrites its own first bytes. R58 and N14 leave such an image to the loader; no rule says it wraps. -/
def loaderWrites (base : Word) : List Byte → List Transaction
  | [] => []
  | v :: rest => .port (.writeMem base v) :: loaderWrites (base + 1) rest

/-- A LAUNCH STATE (R12, R35): any state with no fatal stop. -/
def State.isLaunch (s : State) : Bool := s.fatal.isNone

end Sys2Proof.Machine
end

