-- ==== Sys2Proof/Machine/Run.lean ====
section
/-! DEFINITION. The outcome of a step in the spec's own two forms (spec/00_scope.md R9), and the run of `n` steps
(spec/43_step_and_dispatch.md R146). -/

namespace Sys2Proof.Machine

/-- The outcome of a step (R9): the state after the instruction, or a fatal reason. There is no third. -/
inductive StepOutcome where
  | next (s' : State)
  | fatal (reason : FatalReason)
deriving DecidableEq, Repr

/-- The outcome of R9 read from the latch of the state a step answers; `none` where no step is defined (R145). -/
def stepOutcome (s : State) : Option StepOutcome :=
  match step s with
  | .next s' =>
    match s'.fatal with
    | none => some (.next s')
    | some reason => some (.fatal reason)
  | .fault _ => none
  | .refused _ => none

/-- The result of `Run(s, n)` (R146). -/
structure RunResult where
  /-- The state reached. -/
  final : State
  /-- The reason, if the run stopped early. -/
  stopped : Option FatalReason
  /-- The number of steps completed; the fatal step is not one of them (log entry 15). -/
  completed : Nat
deriving DecidableEq, Repr

/-- One more step was completed before the rest of the run. -/
def RunResult.afterStep (r : RunResult) : RunResult := { r with completed := r.completed + 1 }

/-- `Run(s, n)`: `n` steps from `s`, stopping early at the first fatal one (R146). -/
def run (n : Nat) (s : State) : RunResult :=
  match n with
  | 0 => ⟨s, s.fatal, 0⟩
  | k + 1 =>
    match step s with
    | .next s' =>
      match s'.fatal with
      | none => (run k s').afterStep
      | some reason => ⟨s', some reason, 0⟩
    | .fault (.stopped reason) => ⟨s, some reason, 0⟩
    | .refused _ => ⟨s, s.fatal, 0⟩

end Sys2Proof.Machine
end

