-- ==== Sys2Proof/Machine/Reference.lean ====
section
/-! DEFINITION. The spec's own shape of the machine, written beside the model and used by claims only: the field view of
the opcode byte (spec/30_encoding.md R81 to R84), the instruction value of four variants (R85), and `Step` and
`Dispatch` with their arithmetic on plain numbers (spec/43_step_and_dispatch.md R140, R141, R148). The model does not
call this file. -/

namespace Sys2Proof.Machine

/-! ## The field view of the opcode byte (R81 to R84) -/

/-- The field `rrr`; `110` is no register (R82). -/
def regField (n : Nat) : Option Reg8 :=
  match n with
  | 0 => some .b
  | 1 => some .c
  | 2 => some .d
  | 3 => some .e
  | 4 => some .h
  | 5 => some .l
  | 7 => some .a
  | _ => none

/-- The field `pp`; `11` is no pair (R83). -/
def pairField (n : Nat) : Option Pair :=
  match n with
  | 0 => some .bc
  | 1 => some .de
  | 2 => some .hl
  | _ => none

/-- The field `kk` (R84). -/
def condField (n : Nat) : Option Cond :=
  match n with
  | 0 => some .nz
  | 1 => some .z
  | 2 => some .nc
  | 3 => some .c
  | _ => none

/-- The formats `A`, `P`, `JC` and `JA` of R81 as patterns of the opcode byte. -/
def fieldEntry (op : Byte) : Option Entry :=
  if op.extractLsb' 3 5 = 0b10000#5 then (regField (op.extractLsb' 0 3).toNat).map .add
  else if op.extractLsb' 6 2 = 0b00#2 && op.extractLsb' 0 4 = 0b0011#4 then
    (pairField (op.extractLsb' 4 2).toNat).map .incPair
  else if op.extractLsb' 6 2 = 0b00#2 && op.extractLsb' 0 4 = 0b1011#4 then
    (pairField (op.extractLsb' 4 2).toNat).map .decPair
  else if op.extractLsb' 5 3 = 0b110#3 && op.extractLsb' 0 3 = 0b010#3 then
    (condField (op.extractLsb' 3 2).toNat).map .jp
  else if op = 0b11000011#8 then some (.jp .always)
  else none

/-! ## The instruction value (R85) -/

/-- The closed tagged value: one variant per family. -/
inductive Variant where
  | add (r : Reg8)
  | jp (k : Cond) (target : Word)
  | incPair (p : Pair)
  | decPair (p : Pair)
deriving DecidableEq, Repr

/-- `Decode(addr)` of R86, reading memory through `MemRead` alone. -/
def refDecode (cfg : Config) (m : Memory) (addr : Word) : Except DecodeFailure Variant :=
  let op := m.read addr
  if op = cfg.prefixByte then
    let sub := m.read (addr + 1)
    match cfg.secondary.lookup sub with
    | none => .error (.unknownOpcode (secondaryCode cfg sub))
    | some e => .ok (complete e (addr + 1 + 1))
  else
    match cfg.primary.lookup op with
    | none => .error (.unknownOpcode (primaryCode cfg op))
    | some e => .ok (complete e (addr + 1))
where
  /-- Complete an entry with the operand bytes starting at `at16`. -/
  complete (e : Entry) (at16 : Word) : Variant :=
    match e with
    | .add r => .add r
    | .incPair p => .incPair p
    | .decPair p => .decPair p
    | .jp k => .jp k (m.readWord at16)

/-- `len` (R94). -/
def Variant.len (v : Variant) : Nat :=
  match v with
  | .add _ => 1
  | .incPair _ => 1
  | .decPair _ => 1
  | .jp _ _ => 3

/-- The variant of an instruction; the prefix row is a failure and has none (R85, R89). -/
def instrVariant (i : Instr) : Option Variant :=
  match i with
  | .incBC => some (.incPair .bc)
  | .decBC => some (.decPair .bc)
  | .incDE => some (.incPair .de)
  | .decDE => some (.decPair .de)
  | .incHL => some (.incPair .hl)
  | .decHL => some (.decPair .hl)
  | .addAB => some (.add .b)
  | .addAC => some (.add .c)
  | .addAD => some (.add .d)
  | .addAE => some (.add .e)
  | .addAH => some (.add .h)
  | .addAL => some (.add .l)
  | .addAA => some (.add .a)
  | .jpNZ t => some (.jp .nz t)
  | .jp t => some (.jp .always t)
  | .jpZ t => some (.jp .z t)
  | .prefixCB _ => none
  | .jpNC t => some (.jp .nc t)
  | .jpC t => some (.jp .c t)

/-! ## Dispatch and Step on plain numbers (R140, R141, R148) -/

/-- The state `ADD A,r` with operand value `y` gives (R110), computed on natural numbers: the sum modulo 256, zero iff
the wrapped result is 0, subtract false, half-carry iff the low nibbles add to more than 0xF, carry iff the sum is more
than 0xFF; pc on by 1. -/
def refAdd (y : Byte) (s : State) : State :=
  let x := s.regs.a.toNat
  { s with
    regs := { s.regs with a := BitVec.ofNat 8 ((x + y.toNat) % 256) }
    fl :=
      { z := decide ((x + y.toNat) % 256 = 0)
        n := false
        h := decide (x % 16 + y.toNat % 16 > 0xF)
        c := decide (x + y.toNat > 0xFF) }
    pc := s.pc + 1 }

/-- The value of a pair, the first-named register in the upper byte (R27). -/
def refPair (hi lo : Byte) : Nat := hi.toNat * 256 + lo.toNat

/-- The upper byte of a pair value that is taken modulo 65,536 (R130). -/
def refHigh (v : Nat) : Byte := BitVec.ofNat 8 (v % 65536 / 256)

/-- The lower byte of a pair value that is taken modulo 65,536 (R130). -/
def refLow (v : Nat) : Byte := BitVec.ofNat 8 (v % 65536 % 256)

/-- The pair `p` replaced by the two bytes of `f` of its value; flags and memory untouched, pc on by 1 (R130). -/
def refPairStep (f : Nat → Nat) (p : Pair) (s : State) : State :=
  match p with
  | .bc =>
    let v := f (refPair s.regs.b s.regs.c)
    { s with regs := { s.regs with b := refHigh v, c := refLow v }, pc := s.pc + 1 }
  | .de =>
    let v := f (refPair s.regs.d s.regs.e)
    { s with regs := { s.regs with d := refHigh v, e := refLow v }, pc := s.pc + 1 }
  | .hl =>
    let v := f (refPair s.regs.h s.regs.l)
    { s with regs := { s.regs with h := refHigh v, l := refLow v }, pc := s.pc + 1 }

/-- A pair value plus 1 (R130). -/
def refInc (v : Nat) : Nat := v + 1

/-- A pair value minus 1, modulo 65,536 (R130). -/
def refDec (v : Nat) : Nat := v + 65535

/-- The next pc of a jump (R120, R147). -/
def refJump (taken : Bool) (target : Word) (s : State) : State :=
  { s with pc := if taken then target else s.pc + 3 }

/-- `Dispatch(s, i)` (R141). -/
def refDispatch (v : Variant) (s : State) : State :=
  match v with
  | .add .b => refAdd s.regs.b s
  | .add .c => refAdd s.regs.c s
  | .add .d => refAdd s.regs.d s
  | .add .e => refAdd s.regs.e s
  | .add .h => refAdd s.regs.h s
  | .add .l => refAdd s.regs.l s
  | .add .a => refAdd s.regs.a s
  | .jp .nz t => refJump (!s.fl.z) t s
  | .jp .z t => refJump s.fl.z t s
  | .jp .nc t => refJump (!s.fl.c) t s
  | .jp .c t => refJump s.fl.c t s
  | .jp .always t => refJump true t s
  | .incPair p => refPairStep refInc p s
  | .decPair p => refPairStep refDec p s

/-- `Step(s)` (R140) for a state with no fatal stop, its outcome in R9's two forms. -/
def refStep (s : State) : StepOutcome :=
  match refDecode Config.spec s.mem s.pc with
  | .error (.unknownOpcode code) => .fatal (.unknownOpcode code)
  | .ok v => .next (refDispatch v s)

end Sys2Proof.Machine
end

