-- ==== Sys2Proof/Safety.lean ====
section
/-! DEFINITION. What counts as a safe run, in the terms claims use (spec/60_exceptions.md R171), and the invariant every
transaction keeps. -/

namespace Sys2Proof.Machine

/-- A safe step: it answers a next state in which no fatal stop was recorded. `step s` answering a next state is NOT
enough: a fatal stop is a next state with the latch set (log entry 1). -/
def SafeStep (s : State) : Prop := ∃ s', stepOutcome s = some (.next s')

/-- No step of the run of `n` steps from `s` is fatal (R171). -/
def SafeRun (n : Nat) (s : State) : Prop := (run n s).stopped = none

/-- The latch never says `undispatched` (R141: unreachable with this spec's tables). -/
def State.latchWf (s : State) : Bool := s.fatal != some .undispatched

/-- The invariant of the machine: memory in canonical form, and no undispatched instruction recorded. -/
def State.Inv (s : State) : Prop := s.mem.wf = true ∧ s.latchWf = true

end Sys2Proof.Machine
end

