-- ==== Sys2Proof/WellFormed.lean ====
section
/-! DEFINITION. When a configuration's tables can be decoded unambiguously, and when an instruction is one the
configuration's tables can give (spec/30_encoding.md R86, R88, R89). The operands need no check: a target and a
secondary opcode are words of their exact width. -/

namespace Sys2Proof

/-- No opcode value stands twice in a table. -/
def tableUnambiguous (t : List (Byte × Entry)) : Bool := decide (t.map Prod.fst).Nodup

/-- Each table is a map from opcode values to entries, and the prefix byte has no primary entry: it is never looked up
in the primary table (R86, R88). -/
def Config.wellFormed (cfg : Config) : Bool :=
  tableUnambiguous cfg.primary && tableUnambiguous cfg.secondary
    && (cfg.primary.lookup cfg.prefixByte).isNone

/-- An instruction the configuration's tables give: its entry stands in the primary table, or, for the prefix row, its
second byte has no secondary entry. -/
def Instr.wellFormedIn (cfg : Config) (i : Instr) : Bool :=
  match i.entry, i with
  | some e, _ => (cfg.primary.map Prod.snd).contains e
  | none, .prefixCB sub => (cfg.secondary.lookup sub).isNone
  | none, _ => false

/-- Well-formed for the tables of this spec. -/
def Instr.wellFormed (i : Instr) : Bool := i.wellFormedIn Config.spec

end Sys2Proof
end

