-- ==== Sys2Proof/Certificates/Slice0/Obligations.lean ====
section
/-! DEFINITION. The statements for the provers, in the order of the spec's files: state, memory, encoding, the three
families, the step and the dispatcher, fatal stops, reset, the host port and the run. -/

open Sys2Proof Sys2Proof.Machine

/-! ## State (spec/10_state.md) -/

/-- R20: a write to one register reads back, and changes no other register. -/
def Obligations.RegisterWritesAreIndependent : Prop :=
  ∀ (rf : RegFile) (r q : Reg8) (v : Byte), (rf.set r v).get q = if q = r then v else rf.get q

/-- R24: bit 7 is zero, bit 6 subtract, bit 5 half-carry, bit 4 carry, and the low nibble is zero. -/
def Obligations.FlagsEncodePlacesEachFlag : Prop :=
  ∀ fl : Flags,
    (flagsEncode fl).getLsbD 7 = fl.z ∧ (flagsEncode fl).getLsbD 6 = fl.n ∧ (flagsEncode fl).getLsbD 5 = fl.h ∧
      (flagsEncode fl).getLsbD 4 = fl.c ∧ (flagsEncode fl).toNat % 16 = 0 ∧
        flagsEncode ⟨true, false, true, true⟩ = 0xB0

/-- R25: what decoding a byte gives, and the two round trips. -/
def Obligations.FlagsBytesRoundTrip : Prop :=
  (∀ v : Byte, flagsDecode v = ⟨v.getLsbD 7, v.getLsbD 6, v.getLsbD 5, v.getLsbD 4⟩) ∧
    (∀ v : Byte, flagsEncode (flagsDecode v) = v &&& 0xF0) ∧
      (∀ v : Byte, v.toNat % 16 = 0 → flagsEncode (flagsDecode v) = v) ∧
        ∀ fl : Flags, flagsDecode (flagsEncode fl) = fl

/-- R21: `f` reads as the encoded flags, writing it decodes the byte, and its low nibble always reads 0. -/
def Obligations.FlagRegisterIsAViewOfTheFlags : Prop :=
  ∀ (s : State) (v : Byte),
    s.readF = flagsEncode s.fl ∧ (s.writeF v).fl = flagsDecode v ∧ (s.writeF v).readF = v &&& 0xF0 ∧
      s.readF &&& 0x0F = 0

/-- R27: a pair read composes its two registers, a pair write decomposes the value into them and into nothing else, and
the `af` view does the same with the accumulator and the flags. -/
def Obligations.PairsAreViewsOfTwoRegisters : Prop :=
  ∀ (s : State) (v : Word),
    ((s.regs.getPair .bc).toNat = s.regs.b.toNat * 256 + s.regs.c.toNat ∧
      (s.regs.getPair .de).toNat = s.regs.d.toNat * 256 + s.regs.e.toNat ∧
        (s.regs.getPair .hl).toNat = s.regs.h.toNat * 256 + s.regs.l.toNat) ∧
    (s.regs.setPair .bc v = { s.regs with b := BitVec.ofNat 8 (v.toNat / 256), c := BitVec.ofNat 8 (v.toNat % 256) } ∧
      s.regs.setPair .de v = { s.regs with d := BitVec.ofNat 8 (v.toNat / 256), e := BitVec.ofNat 8 (v.toNat % 256) } ∧
        s.regs.setPair .hl v =
          { s.regs with h := BitVec.ofNat 8 (v.toNat / 256), l := BitVec.ofNat 8 (v.toNat % 256) }) ∧
    s.readAF.toNat = s.regs.a.toNat * 256 + (flagsEncode s.fl).toNat ∧
      s.writeAF v =
        { s with
          regs := { s.regs with a := BitVec.ofNat 8 (v.toNat / 256) }
          fl := flagsDecode (BitVec.ofNat 8 (v.toNat % 256)) }

/-- R28: a pair reads back every value written; `af` reads back the value with its low nibble cleared. -/
def Obligations.PairsReadBack : Prop :=
  (∀ (rf : RegFile) (p : Pair) (v : Word), (rf.setPair p v).getPair p = v) ∧
    (∀ (s : State) (v : Word), (s.writeAF v).readAF = v &&& 0xFFF0) ∧
      ∀ (s : State) (v : Word), v.toNat % 16 = 0 ↔ (s.writeAF v).readAF = v

/-- R26: no step ever sets the subtract flag to true. -/
def Obligations.StepNeverSetsSubtract : Prop :=
  ∀ s s' : State, step s = .next s' → s'.fl.n = true → s.fl.n = true

/-- R26: no step reads the subtract or the half-carry flag: whatever they hold, the registers, the next pc, the memory,
the latch, the zero flag and the carry flag come out the same. -/
def Obligations.StepIgnoresSubtractAndHalfCarry : Prop :=
  ∀ (s t : State) (n h : Bool), step s = .next t →
    ∃ t', step { s with fl := { s.fl with n := n, h := h } } = .next t' ∧
      t'.regs = t.regs ∧ t'.pc = t.pc ∧ t'.mem = t.mem ∧ t'.fatal = t.fatal ∧ t'.fl.z = t.fl.z ∧ t'.fl.c = t.fl.c

/-! ## Memory (spec/20_memory.md) -/

/-- R51, R52: a write sets that byte, changes no other, and a later read returns it. -/
def Obligations.MemoryWriteChangesOneByte : Prop :=
  ∀ (m : Memory) (addr other : Word) (v : Byte), m.wf = true →
    (m.write addr v).read other = if other = addr then v else m.read other

/-- Canonical memories that read the same everywhere are the same data (log entry 16): a claim that every byte reads as
before is a claim about the whole memory. -/
def Obligations.MemoriesReadingAlikeAreEqual : Prop :=
  ∀ m m' : Memory, m.wf = true → m'.wf = true → (∀ addr, m.read addr = m'.read addr) → m = m'

/-- R53, R55: a 16-bit read is little-endian and its high byte's address wraps. -/
def Obligations.WordReadIsLittleEndianAndWraps : Prop :=
  (∀ (m : Memory) (addr : Word), (m.readWord addr).toNat = (m.read addr).toNat + 256 * (m.read (addr + 1)).toNat) ∧
    ∀ m : Memory, (m.readWord 0xFFFF).toNat = (m.read 0xFFFF).toNat + 256 * (m.read 0x0000).toNat

/-- R66: no step writes memory. -/
def Obligations.StepNeverWritesMemory : Prop :=
  ∀ s s' : State, step s = .next s' → s'.mem = s.mem ∧ ∀ addr, s'.mem.read addr = s.mem.read addr

/-- R37, R66: a step sees memory through its own instruction's bytes only: another memory with those bytes gives the same
next state, but for that memory. -/
def Obligations.StepDependsOnlyOnTheFetchedBytes : Prop :=
  ∀ (s t : State) (m' : Memory),
    (∀ addr ∈ readsAt Config.spec s.mem s.pc, m'.read addr = s.mem.read addr) → step s = .next t →
      step { s with mem := m' } = .next { t with mem := m' }

/-- R64: a byte a host writes at pc is what the very next step fetches, for every 1-byte instruction. -/
def Obligations.HostWriteIsSeenByTheNextFetch : Prop :=
  ∀ (s : State) (i : Instr) (op : Byte), s.mem.wf = true → s.fatal = none → encode Config.spec i = some [op] →
    transact .step (portEffect (.writeMem s.pc op) s) = exec i (portEffect (.writeMem s.pc op) s)

/-! ## Encoding (spec/30_encoding.md) -/

/-- R81 to R84: the field view of the opcode byte reproduces the primary table exactly. -/
def Obligations.FieldViewReproducesThePrimaryTable : Prop :=
  ∀ op : Byte, fieldEntry op = Config.spec.primary.lookup op

/-- A few words decode to what they stand for, as bytes and through the opcode table's bit numbering: the source's own two,
0x81 and 0xC2; two whose opcode values the spec takes from general knowledge (log entry 5); and the prefix byte (log entry
4), whose row is an instruction by the model's choice (log entry 3): the spec's Decode fails there (R86, R89). -/
def Obligations.SampleWordsDecode : Prop :=
  decodeBytes [0b10000001] = .ok .addAC ∧ decodeBytes [0b11000010, 0x34, 0x12] = .ok (.jpNZ 0x1234) ∧
    decodeBytes [0b00101011] = .ok .decHL ∧ decodeBytes [0b11000011, 0x50, 0x01] = .ok (.jp 0x0150) ∧
      decodeBytes [0b11001011, 0x37] = .ok (.prefixCB 0x37) ∧
        decodeTableWord 8 0x81 = some .addAC ∧ decodeTableWord 24 0x1234C2 = some (.jpNZ 0x1234) ∧
          decodeTableWord 8 0x2B = some .decHL ∧ decodeTableWord 24 0x0150C3 = some (.jp 0x0150) ∧
            decodeTableWord 16 0x37CB = some (.prefixCB 0x37)

/-- R90: the 237 first bytes that are neither in the primary table nor the prefix byte, listed, and what `Decode` answers
for them and for every second byte after the prefix byte. The list is the complement of opcode values the spec decides (D4;
log entry 5); the code of the second clause rests on the prefix byte, the empty secondary table and the code format, decided
too (D3, D5, D9; log entries 4, 7, 8). -/
def Obligations.UnknownOpcodesAreRefusedByTheDecoder : Prop :=
  (∀ rd : Nat → Byte,
      let n := (rd 0).toNat
      (n ≤ 0x02 ∨ (0x04 ≤ n ∧ n ≤ 0x0A) ∨ (0x0C ≤ n ∧ n ≤ 0x12) ∨ (0x14 ≤ n ∧ n ≤ 0x1A) ∨ (0x1C ≤ n ∧ n ≤ 0x22) ∨
          (0x24 ≤ n ∧ n ≤ 0x2A) ∨ (0x2C ≤ n ∧ n ≤ 0x7F) ∨ n = 0x86 ∨ (0x88 ≤ n ∧ n ≤ 0xC1) ∨ (0xC4 ≤ n ∧ n ≤ 0xC9) ∨
          (0xCC ≤ n ∧ n ≤ 0xD1) ∨ (0xD3 ≤ n ∧ n ≤ 0xD9) ∨ 0xDB ≤ n) ↔
        decode Config.spec rd = .error (.unknownOpcode (hex2 (rd 0)))) ∧
    (∀ rd : Nat → Byte, rd 0 = 0xCB →
      decode Config.spec rd = .error (.unknownOpcode ("CB" ++ hex2 (rd 1)))) ∧
    ((List.range 256).filter fun n =>
      (Config.spec.primary.lookup (BitVec.ofNat 8 n)).isNone && BitVec.ofNat 8 n != Config.spec.prefixByte).length = 237

/-- R91: a code is the digits of the upper and the lower half of the byte, and a secondary code is the prefix byte's two
digits and then the second byte's; different bytes have different codes. The upper case, the missing `0x` and the marker are
the spec's decision D9 (log entry 8), the marker's value D3 (log entry 4). -/
def Obligations.CodeStringsAreUpperCaseHexadecimal : Prop :=
  (∀ v : Byte, (hex2 v).toList =
      ["0123456789ABCDEF".toList.getD (v.toNat / 16) ' ', "0123456789ABCDEF".toList.getD (v.toNat % 16) ' ']) ∧
    (∀ sub : Byte, secondaryCode Config.spec sub = "CB" ++ hex2 sub) ∧
      (∀ v w : Byte, hex2 v = hex2 w → v = w) ∧
        hex2 0x00 = "00" ∧ hex2 0xD3 = "D3" ∧ secondaryCode Config.spec 0x37 = "CB37" ∧
          secondaryCode Config.spec 0x0A = "CB0A"

/-- The format of a code string decides the codes and nothing else (D9: "diagnostics only"): whatever it is, the same bytes
decode to the same rows and are encoded alike; two codes that differ in letter case alone are the same digits, and in either
case different bytes have different digits. The format is a parameter of R5 (log entry 8). -/
def Obligations.CodeFormatChangesTheCodesOnly : Prop :=
  (∀ (cfg : Config) (f : CodeFormat) (rd : Nat → Byte) (i : Instr),
      (decodeRow { cfg with code := f } rd = .ok i ↔ decodeRow cfg rd = .ok i) ∧
        (decode { cfg with code := f } rd = .ok i ↔ decode cfg rd = .ok i) ∧
          encode { cfg with code := f } i = encode cfg i) ∧
    (∀ v : Byte, (hexByte .lower v).toList.map Char.toUpper = (hexByte .upper v).toList) ∧
      ∀ (k : LetterCase) (v w : Byte), hexByte k v = hexByte k w → v = w

/-- R94: the length of every instruction, a jump's independent of its target and its condition; and, which R94 does not
say, the prefix row's, by the spec's decision D12 (log entry 22). -/
def Obligations.LengthsAreOneOrThree : Prop :=
  (∀ i ∈ [Instr.addAB, .addAC, .addAD, .addAE, .addAH, .addAL, .addAA], i.len = 1) ∧
    (∀ i ∈ [Instr.incBC, .incDE, .incHL, .decBC, .decDE, .decHL], i.len = 1) ∧
      (∀ t : Word, ∀ i ∈ [Instr.jpNZ t, .jpZ t, .jpNC t, .jpC t, .jp t], i.len = 3) ∧
        ∀ sub : Byte, (Instr.prefixCB sub).len = 2

/-- R99: the bytes `Decode(addr)` reads, exactly. That it reads no other byte is the spec's decision D10 (log entry 20), and
the opcode values listed are D3's and D4's (log entries 4, 5). -/
def Obligations.DecodeReadsExactlyItsBytes : Prop :=
  ∀ (m : Memory) (addr : Word),
    readsAt Config.spec m addr =
      if m.read addr = 0xCB then [addr, addr + 1]
      else if m.read addr ∈ [0xC2#8, 0xC3#8, 0xCA#8, 0xD2#8, 0xDA#8] then [addr, addr + 1, addr + 2]
      else [addr]

/-- R92, R99: `Decode` is a function of the bytes it reads: for any tables, two memories that agree on them decode alike.
It is given a memory and an address and nothing else. -/
def Obligations.DecodeDependsOnlyOnTheBytesItReads : Prop :=
  ∀ (cfg : Config) (m m' : Memory) (addr : Word),
    (∀ a ∈ readsAt cfg m addr, m'.read a = m.read a) →
      rowAt cfg m' addr = rowAt cfg m addr ∧ decodeAt cfg m' addr = decodeAt cfg m addr ∧
        readsAt cfg m' addr = readsAt cfg m addr

/-- The tables of this spec are unambiguous, and every instruction is one of theirs. -/
def Obligations.SpecTablesAreUnambiguousAndComplete : Prop :=
  Config.spec.wellFormed = true ∧ ∀ i : Instr, i.wellFormed = true

/-- For any tables, a well-formed instruction has an encoding, and it is as long as `len` says. -/
def Obligations.WellFormedInstructionsHaveAnEncoding : Prop :=
  ∀ (cfg : Config) (i : Instr), i.wellFormedIn cfg = true →
    ∃ bs, encode cfg i = some bs ∧ bs.length = i.len

/-- HEADLINE: for any unambiguous tables, the bytes of an encoding decode to the instruction they encode, whatever bytes
follow. -/
def Obligations.DecodingAnEncodingGivesItBack : Prop :=
  ∀ (cfg : Config) (i : Instr) (bs : List Byte) (rd : Nat → Byte),
    cfg.wellFormed = true → i.wellFormedIn cfg = true → encode cfg i = some bs →
      (∀ k (hk : k < bs.length), rd k = bs[k]) → decodeRow cfg rd = .ok i

/-- The other direction, for this spec's tables: bytes that decode to an instruction are its encoding. -/
def Obligations.EncodingADecodingGivesTheBytesBack : Prop :=
  ∀ (rd : Nat → Byte) (i : Instr), decodeRow Config.spec rd = .ok i →
    encode Config.spec i = some ((List.range i.len).map rd)

/-! ## ADD A,r (spec/40_arith_accumulate.md) -/

/-- R110: `Add8` on plain numbers, for all operand pairs, and the properties the rule says follow. -/
def Obligations.AddEightComputesResultAndFlags : Prop :=
  ∀ x y : Byte,
    ((add8 x y).1.toNat = (x.toNat + y.toNat) % 256 ∧
      ((add8 x y).2.z = true ↔ (x.toNat + y.toNat) % 256 = 0) ∧ (add8 x y).2.n = false ∧
        ((add8 x y).2.h = true ↔ x.toNat % 16 + y.toNat % 16 > 0xF) ∧
          ((add8 x y).2.c = true ↔ x.toNat + y.toNat > 0xFF)) ∧
    ((add8 x y).2.c = true ↔ (add8 x y).1.toNat < x.toNat) ∧
      ((add8 x y).2.c = true ↔ (add8 x y).1.toNat < y.toNat) ∧
        ((add8 x y).2.h = true ↔ (add8 x y).1.toNat % 16 < x.toNat % 16) ∧
          ((add8 x y).2.z = true → (add8 x y).2.c = true → x.toNat + y.toNat = 256) ∧
            ((add8 x y).2.z = true → (add8 x y).2.c = false → x = 0 ∧ y = 0) ∧
              (y = 0 → (add8 x y).2.h = false ∧ (add8 x y).2.c = false ∧ (add8 x y).1 = x)

/-- R111 to R117: each `ADD A,r` completes in every state, with the accumulator, the four flags and pc as R110 gives them
on plain numbers (`refAdd`) and everything else as before; and each has the one byte its rule names. Six of the seven opcode values, all but
0x81, are the spec's decision D4 (log entry 5). -/
def Obligations.AddInstructionsComplete : Prop :=
  (∀ s : State,
    exec .addAB s = .next (refAdd s.regs.b s) ∧ exec .addAC s = .next (refAdd s.regs.c s) ∧
      exec .addAD s = .next (refAdd s.regs.d s) ∧ exec .addAE s = .next (refAdd s.regs.e s) ∧
        exec .addAH s = .next (refAdd s.regs.h s) ∧ exec .addAL s = .next (refAdd s.regs.l s) ∧
          exec .addAA s = .next (refAdd s.regs.a s)) ∧
    encode Config.spec .addAB = some [0x80] ∧ encode Config.spec .addAC = some [0x81] ∧
      encode Config.spec .addAD = some [0x82] ∧ encode Config.spec .addAE = some [0x83] ∧
        encode Config.spec .addAH = some [0x84] ∧ encode Config.spec .addAL = some [0x85] ∧
          encode Config.spec .addAA = some [0x87]

/-- R117: the accumulator doubled; carry is its old bit 7, half-carry its old bit 3, zero exactly for 0x00 and 0x80. -/
def Obligations.AddAccumulatorToItselfDoubles : Prop :=
  ∀ s t : State, exec .addAA s = .next t →
    t.regs.a.toNat = 2 * s.regs.a.toNat % 256 ∧ t.fl.c = s.regs.a.getLsbD 7 ∧ t.fl.h = s.regs.a.getLsbD 3 ∧
      (t.fl.z = true ↔ s.regs.a = 0x00 ∨ s.regs.a = 0x80)

/-- THE FRAME of the seven adds: every register but the accumulator, every byte of memory and the latch are unchanged.
All four flags are written (R26). -/
def Obligations.AddInstructionsFrame : Prop :=
  ∀ s t : State, ∀ i ∈ [Instr.addAB, .addAC, .addAD, .addAE, .addAH, .addAL, .addAA], exec i s = .next t →
    (∀ r : Reg8, r ≠ .a → t.regs.get r = s.regs.get r) ∧ (∀ addr, t.mem.read addr = s.mem.read addr) ∧
      t.fatal = s.fatal

/-! ## JP (spec/41_jump_absolute.md) -/

/-- R120 to R124: each conditional jump completes in every state; pc becomes the target verbatim when its condition holds
of the flags and goes on by 3 otherwise, and nothing else changes; and each has the three bytes its rule names. The opcode
values 0xCA, 0xD2 and 0xDA are the spec's decision D4 (log entry 5). -/
def Obligations.ConditionalJumpsComplete : Prop :=
  (∀ (s : State) (t : Word),
    exec (.jpNZ t) s = .next { s with pc := if s.fl.z = false then t else s.pc + 3 } ∧
      exec (.jpZ t) s = .next { s with pc := if s.fl.z = true then t else s.pc + 3 } ∧
        exec (.jpNC t) s = .next { s with pc := if s.fl.c = false then t else s.pc + 3 } ∧
          exec (.jpC t) s = .next { s with pc := if s.fl.c = true then t else s.pc + 3 }) ∧
    ∀ lo hi : Byte,
      encode Config.spec (.jpNZ (join hi lo)) = some [0xC2, lo, hi] ∧
        encode Config.spec (.jpZ (join hi lo)) = some [0xCA, lo, hi] ∧
          encode Config.spec (.jpNC (join hi lo)) = some [0xD2, lo, hi] ∧
            encode Config.spec (.jpC (join hi lo)) = some [0xDA, lo, hi]

/-- R125: `JP a16` completes in every state with pc at the target; a jump to its own address leaves the whole state
unchanged; its three bytes; and its target's bytes across the top of memory. The opcode value 0xC3 is the spec's decision D4
(log entry 5). -/
def Obligations.UnconditionalJumpCompletes : Prop :=
  (∀ (s : State) (t : Word), exec (.jp t) s = .next { s with pc := t }) ∧
    (∀ s : State, exec (.jp s.pc) s = .next s) ∧
      (∀ lo hi : Byte, encode Config.spec (.jp (join hi lo)) = some [0xC3, lo, hi]) ∧
        ∀ m : Memory, m.read 0xFFFE = 0xC3 →
          rowAt Config.spec m 0xFFFE = .ok (.jp (join (m.read 0x0000) (m.read 0xFFFF)))

/-- THE FRAME of the five jumps: no register, no flag, no byte of memory and not the latch. -/
def Obligations.JumpsFrame : Prop :=
  ∀ (s t : State) (a16 : Word), ∀ i ∈ [Instr.jpNZ a16, .jpZ a16, .jpNC a16, .jpC a16, .jp a16], exec i s = .next t →
    (∀ r : Reg8, t.regs.get r = s.regs.get r) ∧ t.fl = s.fl ∧ (∀ addr, t.mem.read addr = s.mem.read addr) ∧
      t.fatal = s.fatal

/-! ## INC rr and DEC rr (spec/42_pair_incdec.md) -/

/-- R131 to R136: each pair instruction completes in every state; the pair's two registers take the value plus or minus 1
modulo 65,536 on plain numbers (`refPairStep`), pc goes on by 1 and nothing else changes, no flag among it; and each has
the one byte its rule names. The source doubts its own wrap and its silence on flags (R130, C4; log entry 10); the opcode
values are the spec's decision D4 (log entry 5) and the pairs' names D8 (log entry 9). -/
def Obligations.PairInstructionsComplete : Prop :=
  (∀ s : State,
    exec .incBC s = .next (refPairStep refInc .bc s) ∧ exec .incDE s = .next (refPairStep refInc .de s) ∧
      exec .incHL s = .next (refPairStep refInc .hl s) ∧ exec .decBC s = .next (refPairStep refDec .bc s) ∧
        exec .decDE s = .next (refPairStep refDec .de s) ∧ exec .decHL s = .next (refPairStep refDec .hl s)) ∧
    encode Config.spec .incBC = some [0x03] ∧ encode Config.spec .incDE = some [0x13] ∧
      encode Config.spec .incHL = some [0x23] ∧ encode Config.spec .decBC = some [0x0B] ∧
        encode Config.spec .decDE = some [0x1B] ∧ encode Config.spec .decHL = some [0x2B]

/-- THE FRAME of the six pair instructions: every register outside the pair, every flag, every byte of memory and the
latch are unchanged. That no flag is written is the spec's reading of a doubtful source (R130, C4; log entry 10). -/
def Obligations.PairInstructionsFrame : Prop :=
  ∀ s t : State,
    ∀ ip ∈ [(Instr.incBC, Pair.bc), (.incDE, .de), (.incHL, .hl), (.decBC, .bc), (.decDE, .de), (.decHL, .hl)],
      exec ip.1 s = .next t →
        (∀ r : Reg8, r ≠ highReg ip.2 → r ≠ lowReg ip.2 → t.regs.get r = s.regs.get r) ∧ t.fl = s.fl ∧
          (∀ addr, t.mem.read addr = s.mem.read addr) ∧ t.fatal = s.fatal

/-- R137: `INC` then `DEC` of one pair restores every register and flag, and so does the reverse (wrap and flags: log entry
10). -/
def Obligations.IncrementAndDecrementAreInverse : Prop :=
  ∀ s : State, ∀ ij ∈ [(Instr.incBC, Instr.decBC), (.incDE, .decDE), (.incHL, .decHL)],
    (∃ t u, exec ij.1 s = .next t ∧ exec ij.2 t = .next u ∧ u = { s with pc := s.pc + 2 }) ∧
      ∃ t u, exec ij.2 s = .next t ∧ exec ij.1 t = .next u ∧ u = { s with pc := s.pc + 2 }

/-! ## The step and the dispatcher (spec/43_step_and_dispatch.md) -/

/-- A STEP RUNS THE DECODED INSTRUCTION: where the latch is clear and the bytes at pc hold a row, the step is that row's
`exec` and nothing around it. -/
def Obligations.StepRunsTheDecodedInstruction : Prop :=
  ∀ (s : State) (i : Instr), s.fatal = none → rowAt Config.spec s.mem s.pc = .ok i → step s = exec i s

/-- The same by encoding: where the bytes at pc, on through the wrap of the address space, are those of a well-formed
instruction, the step is that instruction's `exec`. -/
def Obligations.StepRunsTheEncodedInstruction : Prop :=
  ∀ (s : State) (i : Instr) (bs : List Byte), s.fatal = none → i.wellFormed = true → encode Config.spec i = some bs →
    (∀ k (hk : k < bs.length), s.mem.read (s.pc + BitVec.ofNat 16 k) = bs[k]) → step s = exec i s

/-- An instruction placed at pc is what the next step runs (log entry 11). -/
def Obligations.StepRunsThePlacedWord : Prop :=
  ∀ (s : State) (nbits w : Nat) (i : Instr), s.fatal = none → s.mem.wf = true →
    decodeTableWord nbits w = some i → step (s.withFetchWord nbits w) = exec i (s.withFetchWord nbits w)

/-- R141, R142, R143: the dispatcher has an arm for every instruction and each answers a next state: nothing that decodes
is left undispatched, and no step of a clear block is left without an answer. That the prefix row and a step on an unknown
opcode answer a NEXT state, with the latch set, is the model's choice (log entry 1): R9 and R171 call them fatal. -/
def Obligations.EveryInstructionAndStepCompletes : Prop :=
  (∀ (i : Instr) (s : State), ∃ t, exec i s = .next t) ∧ ∀ s : State, s.fatal = none → ∃ t, step s = .next t

/-- R147, R30: the next program counter of every row, in one place. -/
def Obligations.NextProgramCounter : Prop :=
  ∀ (i : Instr) (s t : State), exec i s = .next t →
    t.pc =
      match instrVariant i with
      | none => s.pc
      | some (.jp k target) => if evalCond k s.fl then target else s.pc + 3
      | some v => s.pc + BitVec.ofNat 16 v.len

/-- R140, R141: a step of a clear block is the spec's own `Step` (`refStep`), with its arithmetic on plain numbers: the
state of its `Next`, or its `Fatal` as the latch set and nothing else changed; and these two outcomes of R9 are all there
are. That a fatal step answers the next state with the latch set is the model's choice (log entry 1). -/
def Obligations.StepMatchesTheSpecsStep : Prop :=
  ∀ s : State, s.fatal = none →
    stepOutcome s = some (refStep s) ∧
      (∀ t, refStep s = .next t → step s = .next t) ∧
        ∀ reason, refStep s = .fatal reason → step s = .next { s with fatal := some reason }

/-- HEADLINE: every step keeps the invariant: memory in canonical form, and no undispatched instruction recorded. -/
def Obligations.StepKeepsTheInvariant : Prop :=
  ∀ s s' : State, s.Inv → step s = .next s' → s'.Inv

/-- Every transaction keeps the invariant: a step, any host access, reset. -/
def Obligations.TransactionsKeepTheInvariant : Prop :=
  ∀ (t : Transaction) (s s' : State), s.Inv → transact t s = .next s' → s'.Inv

/-! ## Fatal stops (spec/60_exceptions.md) -/

/-- R145, R168, R182: a block whose latch is set takes no step; no host access clears the latch or changes its reason;
reset clears it with everything else. Each of the three rules marks this as the spec's decision D14; the fault `stopped` as
the answer is the model's reading of it (log entry 2). -/
def Obligations.StoppedBlockStaysStoppedUntilReset : Prop :=
  ∀ (s : State) (reason : FatalReason), s.fatal = some reason →
    (step s = .fault (.stopped reason) ∧ stepOutcome s = none) ∧
      (∀ (t : Transaction) (s' : State), t ≠ .reset → transact t s = .next s' → s'.fatal = some reason) ∧
        transact .reset s = .next State.reset ∧ State.reset.fatal = none

/-- R160: the step is fatal with `UnknownOpcode(code)` exactly when `Decode(pc)` fails with that code, and for no other
reason; each of the 18 admitted instructions raises nothing. -/
def Obligations.StepIsFatalExactlyWhenDecodeFails : Prop :=
  ∀ s : State, s.fatal = none →
    (∀ code, stepOutcome s = some (.fatal (.unknownOpcode code)) ↔
      decodeAt Config.spec s.mem s.pc = .error (.unknownOpcode code)) ∧
    stepOutcome s ≠ some (.fatal .undispatched) ∧
      ∀ i : Instr, instrVariant i ≠ none → ∃ t, exec i s = .next t ∧ t.fatal = none

/-- R166: a fatal step sets the latch and changes nothing else; pc still points at the failing instruction. The latch is the
spec's rendering (D1), and a next state whose latch is set as what a fatal step answers is the model's choice (log entry
1). -/
def Obligations.FatalStepChangesOnlyTheLatch : Prop :=
  ∀ (s s' : State) (reason : FatalReason), step s = .next s' → s'.fatal = some reason →
    s' = { s with fatal := some reason }

/-- R90, R166: a first byte with no entry stops the machine with its two digits (D9; log entry 8). That the step answers the
next state with the latch set is the model's choice (log entry 1). -/
def Obligations.UnknownFirstByteStopsTheMachine : Prop :=
  ∀ s : State, s.fatal = none → s.mem.read s.pc ≠ 0xCB → Config.spec.primary.lookup (s.mem.read s.pc) = none →
    step s = .next { s with fatal := some (.unknownOpcode (hex2 (s.mem.read s.pc))) }

/-- R89: the prefix row's own effect is the fatal stop, with the prefixed code; and the step of a prefix byte followed by
any byte is that. The row as an instruction (log entry 3) and the next state with the latch set (log entry 1) are the model's
choices; the prefix byte (D3; log entry 4), the empty table (D5; log entry 7) and the code's format (D9; log entry 8) are the
spec's decisions. -/
def Obligations.PrefixedOpcodeStopsTheMachine : Prop :=
  (∀ (sub : Byte) (s : State),
    exec (.prefixCB sub) s = .next { s with fatal := some (.unknownOpcode ("CB" ++ hex2 sub)) }) ∧
    ∀ s : State, s.fatal = none → s.mem.read s.pc = 0xCB →
      step s = .next { s with fatal := some (.unknownOpcode ("CB" ++ hex2 (s.mem.read (s.pc + 1)))) }

/-- A host access never sets the latch either: only a step is ever fatal (R160). -/
def Obligations.OnlyAStepSetsTheLatch : Prop :=
  ∀ (s s' : State) (t : Transaction), s.fatal = none → transact t s = .next s' → s'.fatal ≠ none → t = .step

/-! ## Reset (spec/10_state.md R34, spec/70_reset_and_hazards.md) -/

/-- R34, R180: reset leaves every piece of state at its stated value, and is the same from every state. The value of pc is
the spec's decision D2 (log entry 6). -/
def Obligations.ResetLeavesEveryPieceOfStateAtItsValue : Prop :=
  (∀ r : Reg8, State.reset.regs.get r = 0x00) ∧ State.reset.fl = ⟨false, false, false, false⟩ ∧
    State.reset.readF = 0x00 ∧ (∀ p : Pair, State.reset.regs.getPair p = 0x0000) ∧ State.reset.readAF = 0x0000 ∧
      (∀ addr : Word, State.reset.mem.read addr = 0x00) ∧ State.reset.pc = 0x0000 ∧ State.reset.fatal = none ∧
        ∀ s : State, transact .reset s = .next State.reset

/-- The invariant holds at reset. -/
def Obligations.ResetMeetsTheInvariant : Prop := State.reset.Inv

/-- R184: a core stepped with no program loaded stops at once with code `00` (D9; log entry 8) and nothing changed but the
latch: the next state with the latch set is the model's choice (log entry 1). -/
def Obligations.UnloadedCoreStopsAtOnce : Prop :=
  step State.reset = .next { State.reset with fatal := some (.unknownOpcode "00") }

/-! ## The host port and the run (spec/10_state.md R35, spec/43_step_and_dispatch.md R146) -/

/-- R35: what a host writes it reads back, through the same name: `f` without its low nibble, `af` likewise. In a stopped
block too: that a host's write lands there is the model's choice (log entry 23). -/
def Obligations.HostReadsBackWhatItWrites : Prop :=
  ∀ s : State,
    (∀ r v, portReply (.readReg r) (portEffect (.writeReg r v) s) = .byte v) ∧
      (∀ v, portReply .readF (portEffect (.writeF v) s) = .byte (v &&& 0xF0)) ∧
        (∀ fl, portReply .readFlags (portEffect (.writeFlags fl) s) = .flags fl) ∧
          (∀ p v, portReply (.readPair p) (portEffect (.writePair p v) s) = .word v) ∧
            (∀ v, portReply .readAF (portEffect (.writeAF v) s) = .word (v &&& 0xFFF0)) ∧
              (∀ v, portReply .readPc (portEffect (.writePc v) s) = .word v) ∧
                (s.mem.wf = true →
                  ∀ addr v, portReply (.readMem addr) (portEffect (.writeMem addr v) s) = .byte v) ∧
                  portReply .readDiagnostic s = .diagnostic s.fatal

/-- R35: a host write changes the one thing it names, through whichever of its names, and a host read changes nothing; each
completes. In a stopped block too: that a host's write lands there is the model's choice (log entry 23). -/
def Obligations.HostWriteChangesOnlyWhatItNames : Prop :=
  ∀ s : State,
    (∀ q, transact (.port q) s = .next (portEffect q s) ∧ (portReply q s ≠ .done → portEffect q s = s)) ∧
      (∀ r v, portEffect (.writeReg r v) s = { s with regs := (portEffect (.writeReg r v) s).regs } ∧
        ∀ q, q ≠ r → (portEffect (.writeReg r v) s).regs.get q = s.regs.get q) ∧
        (∀ v, portEffect (.writeF v) s = { s with fl := flagsDecode v }) ∧
          (∀ fl, portEffect (.writeFlags fl) s = { s with fl := fl }) ∧
            (∀ p v, portEffect (.writePair p v) s = { s with regs := (portEffect (.writePair p v) s).regs } ∧
              ∀ q, q ≠ highReg p → q ≠ lowReg p → (portEffect (.writePair p v) s).regs.get q = s.regs.get q) ∧
              (∀ v, portEffect (.writeAF v) s =
                  { s with regs := (portEffect (.writeAF v) s).regs, fl := (portEffect (.writeAF v) s).fl } ∧
                ∀ q, q ≠ Reg8.a → (portEffect (.writeAF v) s).regs.get q = s.regs.get q) ∧
                (∀ v, portEffect (.writePc v) s = { s with pc := v }) ∧
                  ∀ addr v, portEffect (.writeMem addr v) s = { s with mem := (portEffect (.writeMem addr v) s).mem } ∧
                    (s.mem.wf = true →
                      ∀ other, other ≠ addr → (portEffect (.writeMem addr v) s).mem.read other = s.mem.read other)

/-- R183: the loader's writes complete, put each byte of an image at its place, and leave every other byte and every other
piece of state as it was. In a stopped block too: that a host's write lands there is the model's choice (log entry 23), and
so is it that an image going past the top of memory wraps (log entry 24); a longer image than memory is left out, as R58
leaves it to the loader. -/
def Obligations.LoaderPlacesTheImage : Prop :=
  ∀ (s : State) (base : Word) (image : List Byte), s.mem.wf = true → image.length ≤ memSize →
    ∃ t, transactAll (loaderWrites base image) s = .next t ∧ t = { s with mem := t.mem } ∧
      (∀ k (hk : k < image.length), t.mem.read (base + BitVec.ofNat 16 k) = image[k]) ∧
        ∀ addr : Word, (∀ k < image.length, addr ≠ base + BitVec.ofNat 16 k) → t.mem.read addr = s.mem.read addr

/-- R146: a run of `m + n` steps is a run of `m` and, where that did not stop, a run of `n` from where it came to. The count
leaves the fatal step out (log entry 15). -/
def Obligations.RunsCompose : Prop :=
  ∀ (m n : Nat) (s : State), s.isLaunch = true →
    run (m + n) s =
      if (run m s).stopped = none then
        { run n (run m s).final with completed := (run m s).completed + (run n (run m s).final).completed }
      else run m s

/-- R146: a run is its steps. No steps leave the launch state; a first step that is no fatal one is followed by the run of
the rest, counted; a fatal one ends the run there. So a run stops exactly when one of its steps, taken from the state the
steps before it reached, is fatal: with that reason, in that state with the latch set, and with the steps before it counted
(log entries 1, 15); and a run that did not stop completed all its steps and reached a clear latch. -/
def Obligations.RunsStopOnlyByAFatalStep : Prop :=
  ∀ (n : Nat) (s : State), s.isLaunch = true →
    run 0 s = ⟨s, none, 0⟩ ∧
      (∀ t, stepOutcome s = some (.next t) → run (n + 1) s = (run n t).afterStep) ∧
        (∀ reason, stepOutcome s = some (.fatal reason) →
          run (n + 1) s = ⟨{ s with fatal := some reason }, some reason, 0⟩) ∧
          (∀ reason, (run n s).stopped = some reason ↔
            ∃ k u, k < n ∧ run k s = ⟨u, none, k⟩ ∧ stepOutcome u = some (.fatal reason) ∧
              run n s = ⟨{ u with fatal := some reason }, some reason, k⟩) ∧
            (run n s).stopped = (run n s).final.fatal ∧ ((run n s).stopped = none ↔ (run n s).completed = n) ∧
              (run n s).completed ≤ n

/-- R125, R146: a jump to its own address at pc is a fixed point of the step, and a run from it stays there for ever. The
opcode value 0xC3 is the spec's decision D4 (log entry 5). -/
def Obligations.JumpToItselfStaysForEver : Prop :=
  ∀ s : State, s.fatal = none → s.mem.read s.pc = 0xC3 → s.mem.readWord (s.pc + 1) = s.pc →
    step s = .next s ∧ ∀ n, run n s = ⟨s, none, n⟩ ∧ SafeRun n s
end

