-- ==== Sys2Proof/Laws/Decode.lean ====
section
/-! SUPPORT. What the decoder answers in each of its four cases, the entry and the operand bytes of a completed entry, and
what the encoder's table search finds. -/

namespace Sys2Proof

/-- An entry completed to an instruction is that entry again. -/
@[simp] theorem entry_instr (e : Entry) (t : Word) : (e.instr t).entry = some e := by
  cases e with
  | add r => cases r <;> rfl
  | jp k => cases k <;> rfl
  | incPair p => cases p <;> rfl
  | decPair p => cases p <;> rfl

/-- Only the prefix row has no entry. -/
theorem eq_prefixCB_of_entry_none {i : Instr} (h : i.entry = none) : ∃ sub, i = .prefixCB sub := by
  cases i with
  | prefixCB sub => exact ⟨sub, rfl⟩
  | _ => simp [Instr.entry] at h

/-- An opcode the encoder finds for an entry stands in the table with that entry. -/
theorem mem_of_opcodeOf {t : List (Byte × Entry)} {e : Entry} {op : Byte} (h : opcodeOf t e = some op) :
    (op, e) ∈ t := by
  induction t with
  | nil => simp [opcodeOf] at h
  | cons r rest ih =>
    obtain ⟨op', e'⟩ := r
    unfold opcodeOf at h
    split at h
    · subst ‹e' = e›
      cases h
      exact List.mem_cons_self
    · exact List.mem_cons_of_mem _ (ih h)

/-- The encoder finds an opcode for every entry that stands in the table. -/
theorem opcodeOf_isSome {t : List (Byte × Entry)} {e : Entry} (h : e ∈ t.map Prod.snd) :
    (opcodeOf t e).isSome = true := by
  induction t with
  | nil => simp at h
  | cons r rest ih =>
    obtain ⟨op', e'⟩ := r
    unfold opcodeOf
    split
    · rfl
    · refine ih ?_
      rcases List.mem_cons.1 h with h | h
      · exact absurd h.symm ‹_›
      · exact h

/-- In an unambiguous table, looking up an opcode finds the entry it stands with. -/
theorem lookup_of_mem {t : List (Byte × Entry)} {e : Entry} {op : Byte} (hu : tableUnambiguous t = true)
    (h : (op, e) ∈ t) : t.lookup op = some e := by
  simp only [tableUnambiguous, decide_eq_true_eq] at hu
  induction t with
  | nil => simp at h
  | cons r rest ih =>
    obtain ⟨op', e'⟩ := r
    simp only [List.map_cons, List.nodup_cons] at hu
    rcases List.mem_cons.1 h with hm | hm
    · cases hm
      simp
    · have hne : op ≠ op' := by
        rintro rfl
        exact hu.1 (List.mem_map_of_mem (f := Prod.fst) hm)
      rw [List.lookup_cons, beq_false_of_ne hne]
      exact ih hm hu.2

/-! ## The codes of this spec -/

@[simp] theorem primaryCode_spec (op : Byte) : primaryCode Config.spec op = hex2 op := String.empty_append

@[simp] theorem secondaryCode_spec (sub : Byte) : secondaryCode Config.spec sub = "CB" ++ hex2 sub :=
  String.empty_append

/-! ## The four cases of the decoder -/

theorem decodeRow_unknown {cfg : Config} {rd : Nat → Byte} (hp : rd 0 ≠ cfg.prefixByte)
    (hl : cfg.primary.lookup (rd 0) = none) : decodeRow cfg rd = .error (.unknownOpcode (primaryCode cfg (rd 0))) := by
  simp [decodeRow, hp, hl]

theorem decodeRow_primary {cfg : Config} {rd : Nat → Byte} {e : Entry} (hp : rd 0 ≠ cfg.prefixByte)
    (hl : cfg.primary.lookup (rd 0) = some e) : decodeRow cfg rd = .ok (e.instr (join (rd 2) (rd 1))) := by
  simp [decodeRow, hp, hl]

theorem decodeRow_prefixed {cfg : Config} {rd : Nat → Byte} (hp : rd 0 = cfg.prefixByte)
    (hl : cfg.secondary.lookup (rd 1) = none) : decodeRow cfg rd = .ok (.prefixCB (rd 1)) := by
  simp [decodeRow, hp, hl]

theorem decodeRow_secondary {cfg : Config} {rd : Nat → Byte} {e : Entry} (hp : rd 0 = cfg.prefixByte)
    (hl : cfg.secondary.lookup (rd 1) = some e) : decodeRow cfg rd = .ok (e.instr (join (rd 3) (rd 2))) := by
  simp [decodeRow, hp, hl]

/-! ## The first three bytes of an instruction in memory -/

namespace Machine

@[simp] theorem bytesAt_zero (m : Memory) (addr : Word) : bytesAt m addr 0 = m.read addr := by
  simp [bytesAt]

@[simp] theorem bytesAt_one (m : Memory) (addr : Word) : bytesAt m addr 1 = m.read (addr + 1) := rfl

@[simp] theorem bytesAt_two (m : Memory) (addr : Word) : bytesAt m addr 2 = m.read (addr + 2) := rfl

end Machine

end Sys2Proof
end

