-- ==== Sys2Proof/Laws/State.lean ====
section
/-! SUPPORT. One lemma per field per update of State, true by rfl, and one per field per operation of the three families,
so that no proof unfolds a record update. -/

namespace Sys2Proof.Machine

variable (s : State)

@[simp] theorem setPc_regs (t : Word) : (s.setPc t).regs = s.regs := rfl
@[simp] theorem setPc_fl (t : Word) : (s.setPc t).fl = s.fl := rfl
@[simp] theorem setPc_pc (t : Word) : (s.setPc t).pc = t := rfl
@[simp] theorem setPc_mem (t : Word) : (s.setPc t).mem = s.mem := rfl
@[simp] theorem setPc_fatal (t : Word) : (s.setPc t).fatal = s.fatal := rfl

@[simp] theorem setRegs_regs (r : RegFile) : (s.setRegs r).regs = r := rfl
@[simp] theorem setRegs_fl (r : RegFile) : (s.setRegs r).fl = s.fl := rfl
@[simp] theorem setRegs_pc (r : RegFile) : (s.setRegs r).pc = s.pc := rfl
@[simp] theorem setRegs_mem (r : RegFile) : (s.setRegs r).mem = s.mem := rfl
@[simp] theorem setRegs_fatal (r : RegFile) : (s.setRegs r).fatal = s.fatal := rfl

@[simp] theorem setFl_regs (fl : Flags) : (s.setFl fl).regs = s.regs := rfl
@[simp] theorem setFl_fl (fl : Flags) : (s.setFl fl).fl = fl := rfl
@[simp] theorem setFl_pc (fl : Flags) : (s.setFl fl).pc = s.pc := rfl
@[simp] theorem setFl_mem (fl : Flags) : (s.setFl fl).mem = s.mem := rfl
@[simp] theorem setFl_fatal (fl : Flags) : (s.setFl fl).fatal = s.fatal := rfl

@[simp] theorem setMem_regs (m : Memory) : (s.setMem m).regs = s.regs := rfl
@[simp] theorem setMem_fl (m : Memory) : (s.setMem m).fl = s.fl := rfl
@[simp] theorem setMem_pc (m : Memory) : (s.setMem m).pc = s.pc := rfl
@[simp] theorem setMem_mem (m : Memory) : (s.setMem m).mem = m := rfl
@[simp] theorem setMem_fatal (m : Memory) : (s.setMem m).fatal = s.fatal := rfl

@[simp] theorem raiseFatal_regs (reason : FatalReason) : (s.raiseFatal reason).regs = s.regs := rfl
@[simp] theorem raiseFatal_fl (reason : FatalReason) : (s.raiseFatal reason).fl = s.fl := rfl
@[simp] theorem raiseFatal_pc (reason : FatalReason) : (s.raiseFatal reason).pc = s.pc := rfl
@[simp] theorem raiseFatal_mem (reason : FatalReason) : (s.raiseFatal reason).mem = s.mem := rfl
@[simp] theorem raiseFatal_fatal (reason : FatalReason) : (s.raiseFatal reason).fatal = some reason := rfl

@[simp] theorem advance_regs (n : Nat) : (s.advance n).regs = s.regs := rfl
@[simp] theorem advance_fl (n : Nat) : (s.advance n).fl = s.fl := rfl
@[simp] theorem advance_pc (n : Nat) : (s.advance n).pc = s.pc + BitVec.ofNat 16 n := rfl
@[simp] theorem advance_mem (n : Nat) : (s.advance n).mem = s.mem := rfl
@[simp] theorem advance_fatal (n : Nat) : (s.advance n).fatal = s.fatal := rfl

/-! ## The register file -/

@[simp] theorem get_a (rf : RegFile) : rf.get .a = rf.a := rfl
@[simp] theorem get_b (rf : RegFile) : rf.get .b = rf.b := rfl
@[simp] theorem get_c (rf : RegFile) : rf.get .c = rf.c := rfl
@[simp] theorem get_d (rf : RegFile) : rf.get .d = rf.d := rfl
@[simp] theorem get_e (rf : RegFile) : rf.get .e = rf.e := rfl
@[simp] theorem get_h (rf : RegFile) : rf.get .h = rf.h := rfl
@[simp] theorem get_l (rf : RegFile) : rf.get .l = rf.l := rfl

@[simp] theorem get_set_same (rf : RegFile) (r : Reg8) (v : Byte) : (rf.set r v).get r = v := by
  cases r <;> rfl

theorem get_set_other (rf : RegFile) (r q : Reg8) (v : Byte) (hne : q ≠ r) : (rf.set r v).get q = rf.get q := by
  cases r <;> cases q <;> first | rfl | exact absurd rfl hne

theorem regFile_ext (x y : RegFile) (h : ∀ r, x.get r = y.get r) : x = y := by
  obtain ⟨a, b, c, d, e, hh, l⟩ := x
  have ha := h .a; have hb := h .b; have hc := h .c; have hd := h .d; have he := h .e; have hh' := h .h; have hl := h .l
  simp only [get_a, get_b, get_c, get_d, get_e, get_h, get_l] at ha hb hc hd he hh' hl
  subst ha hb hc hd he hh' hl
  rfl

/-! ## The three families: what each operation does to each field -/

@[simp] theorem addAccum_regs (r : Reg8) :
    (s.addAccum r).regs = s.regs.set .a (add8 s.regs.a (s.regs.get r)).1 := rfl
@[simp] theorem addAccum_fl (r : Reg8) : (s.addAccum r).fl = (add8 s.regs.a (s.regs.get r)).2 := rfl
@[simp] theorem addAccum_pc (r : Reg8) : (s.addAccum r).pc = s.pc + 1 := rfl
@[simp] theorem addAccum_mem (r : Reg8) : (s.addAccum r).mem = s.mem := rfl
@[simp] theorem addAccum_fatal (r : Reg8) : (s.addAccum r).fatal = s.fatal := rfl

@[simp] theorem jumpIf_regs (k : Cond) (t : Word) : (s.jumpIf k t).regs = s.regs := rfl
@[simp] theorem jumpIf_fl (k : Cond) (t : Word) : (s.jumpIf k t).fl = s.fl := rfl
@[simp] theorem jumpIf_pc (k : Cond) (t : Word) :
    (s.jumpIf k t).pc = if evalCond k s.fl then t else s.pc + 3 := rfl
@[simp] theorem jumpIf_mem (k : Cond) (t : Word) : (s.jumpIf k t).mem = s.mem := rfl
@[simp] theorem jumpIf_fatal (k : Cond) (t : Word) : (s.jumpIf k t).fatal = s.fatal := rfl

@[simp] theorem incPair_regs (p : Pair) : (s.incPair p).regs = s.regs.setPair p (s.regs.getPair p + 1) := rfl
@[simp] theorem incPair_fl (p : Pair) : (s.incPair p).fl = s.fl := rfl
@[simp] theorem incPair_pc (p : Pair) : (s.incPair p).pc = s.pc + 1 := rfl
@[simp] theorem incPair_mem (p : Pair) : (s.incPair p).mem = s.mem := rfl
@[simp] theorem incPair_fatal (p : Pair) : (s.incPair p).fatal = s.fatal := rfl

@[simp] theorem decPair_regs (p : Pair) : (s.decPair p).regs = s.regs.setPair p (s.regs.getPair p - 1) := rfl
@[simp] theorem decPair_fl (p : Pair) : (s.decPair p).fl = s.fl := rfl
@[simp] theorem decPair_pc (p : Pair) : (s.decPair p).pc = s.pc + 1 := rfl
@[simp] theorem decPair_mem (p : Pair) : (s.decPair p).mem = s.mem := rfl
@[simp] theorem decPair_fatal (p : Pair) : (s.decPair p).fatal = s.fatal := rfl

end Sys2Proof.Machine
end

