-- ==== Sys2Proof/Laws/Exec.lean ====
section
/-! SUPPORT. What each arm of `exec` answers, what a step can do, said once, and the outcome of a step read from it.
Later proofs cite these and do not unfold `exec` or `step`. -/

namespace Sys2Proof.Machine

variable (s : State)

@[simp] theorem exec_incBC : exec .incBC s = .next (s.incPair .bc) := rfl
@[simp] theorem exec_decBC : exec .decBC s = .next (s.decPair .bc) := rfl
@[simp] theorem exec_incDE : exec .incDE s = .next (s.incPair .de) := rfl
@[simp] theorem exec_decDE : exec .decDE s = .next (s.decPair .de) := rfl
@[simp] theorem exec_incHL : exec .incHL s = .next (s.incPair .hl) := rfl
@[simp] theorem exec_decHL : exec .decHL s = .next (s.decPair .hl) := rfl
@[simp] theorem exec_addAB : exec .addAB s = .next (s.addAccum .b) := rfl
@[simp] theorem exec_addAC : exec .addAC s = .next (s.addAccum .c) := rfl
@[simp] theorem exec_addAD : exec .addAD s = .next (s.addAccum .d) := rfl
@[simp] theorem exec_addAE : exec .addAE s = .next (s.addAccum .e) := rfl
@[simp] theorem exec_addAH : exec .addAH s = .next (s.addAccum .h) := rfl
@[simp] theorem exec_addAL : exec .addAL s = .next (s.addAccum .l) := rfl
@[simp] theorem exec_addAA : exec .addAA s = .next (s.addAccum .a) := rfl
@[simp] theorem exec_jpNZ (t : Word) : exec (.jpNZ t) s = .next (s.jumpIf .nz t) := rfl
@[simp] theorem exec_jp (t : Word) : exec (.jp t) s = .next (s.jumpIf .always t) := rfl
@[simp] theorem exec_jpZ (t : Word) : exec (.jpZ t) s = .next (s.jumpIf .z t) := rfl
@[simp] theorem exec_jpNC (t : Word) : exec (.jpNC t) s = .next (s.jumpIf .nc t) := rfl
@[simp] theorem exec_jpC (t : Word) : exec (.jpC t) s = .next (s.jumpIf .c t) := rfl
@[simp] theorem exec_prefixCB (sub : Byte) :
    exec (.prefixCB sub) s = .next (s.raiseFatal (.unknownOpcode (secondaryCode Config.spec sub))) := rfl

/-- What an instruction can do: one of the three families' operations, or the prefix row's fatal stop. -/
theorem exec_cases (i : Instr) :
    (∃ r, exec i s = .next (s.addAccum r)) ∨ (∃ k t, exec i s = .next (s.jumpIf k t)) ∨
      (∃ p, exec i s = .next (s.incPair p)) ∨ (∃ p, exec i s = .next (s.decPair p)) ∨
        (∃ sub, i = .prefixCB sub ∧
          exec i s = .next (s.raiseFatal (.unknownOpcode (secondaryCode Config.spec sub)))) := by
  cases i with
  | addAB | addAC | addAD | addAE | addAH | addAL | addAA => exact .inl ⟨_, rfl⟩
  | jpNZ t | jp t | jpZ t | jpNC t | jpC t => exact .inr (.inl ⟨_, t, rfl⟩)
  | incBC | incDE | incHL => exact .inr (.inr (.inl ⟨_, rfl⟩))
  | decBC | decDE | decHL => exact .inr (.inr (.inr (.inl ⟨_, rfl⟩)))
  | prefixCB sub => exact .inr (.inr (.inr (.inr ⟨sub, rfl, rfl⟩)))

/-- What a step of an unlatched block can do. -/
theorem step_cases {s : State} (h : s.fatal = none) :
    (∃ code, rowAt Config.spec s.mem s.pc = .error (.unknownOpcode code) ∧
        step s = .next (s.raiseFatal (.unknownOpcode code))) ∨
      (∃ i, rowAt Config.spec s.mem s.pc = .ok i ∧ step s = exec i s) := by
  unfold step
  rw [h]
  cases hr : rowAt Config.spec s.mem s.pc with
  | error f =>
    cases f with
    | unknownOpcode code => exact .inl ⟨code, rfl, rfl⟩
  | ok i => exact .inr ⟨i, rfl, rfl⟩

/-- A step that answers a next state was taken by an unlatched block. -/
theorem fatal_none_of_step {s s' : State} (h : step s = .next s') : s.fatal = none := by
  unfold step at h
  cases hf : s.fatal with
  | none => rfl
  | some r =>
    rw [hf] at h
    cases h

/-- THE INVERSION OF A STEP: if it answers a next state, one of the three families' operations was done, or the latch was
set. -/
theorem step_next_cases {s s' : State} (h : step s = .next s') :
    (∃ r, s' = s.addAccum r) ∨ (∃ k t, s' = s.jumpIf k t) ∨ (∃ p, s' = s.incPair p) ∨ (∃ p, s' = s.decPair p) ∨
      (∃ code, s' = s.raiseFatal (.unknownOpcode code)) := by
  rcases step_cases (fatal_none_of_step h) with ⟨code, _, hs⟩ | ⟨i, _, hs⟩
  · rw [h] at hs
    cases hs
    exact .inr (.inr (.inr (.inr ⟨code, rfl⟩)))
  · rw [h] at hs
    rcases exec_cases s i with ⟨r, he⟩ | ⟨k, t, he⟩ | ⟨p, he⟩ | ⟨p, he⟩ | ⟨sub, _, he⟩ <;> rw [he] at hs <;> cases hs
    · exact .inl ⟨r, rfl⟩
    · exact .inr (.inl ⟨k, t, rfl⟩)
    · exact .inr (.inr (.inl ⟨p, rfl⟩))
    · exact .inr (.inr (.inr (.inl ⟨p, rfl⟩)))
    · exact .inr (.inr (.inr (.inr ⟨_, rfl⟩)))

/-! ## The outcome of a step, read from the state it answers -/

theorem stepOutcome_eq_next {s t : State} :
    stepOutcome s = some (.next t) ↔ step s = .next t ∧ t.fatal = none := by
  unfold stepOutcome
  cases step s with
  | next u =>
    cases h : u.fatal <;> simp [h]
    · rintro rfl
      exact h
    · rintro rfl
      simp [h]
  | fault f => simp
  | refused r => simp

theorem stepOutcome_eq_fatal {s : State} {reason : FatalReason} :
    stepOutcome s = some (.fatal reason) ↔ ∃ t, step s = .next t ∧ t.fatal = some reason := by
  unfold stepOutcome
  cases step s with
  | next u => cases h : u.fatal <;> simp [h]
  | fault f => simp
  | refused r => simp

/-! ## The run, one step at a time -/

theorem run_zero (s : State) : run 0 s = ⟨s, s.fatal, 0⟩ := rfl

theorem run_succ_next {s t : State} (n : Nat) (h : step s = .next t) (hf : t.fatal = none) :
    run (n + 1) s = (run n t).afterStep := by
  rw [run]
  simp [h, hf]

theorem run_succ_fatal {s t : State} {reason : FatalReason} (n : Nat) (h : step s = .next t)
    (hf : t.fatal = some reason) : run (n + 1) s = ⟨t, some reason, 0⟩ := by
  rw [run]
  simp [h, hf]

/-- What every step keeps, the state a run reaches has. -/
theorem run_final_of_step {P : State → Prop} (hstep : ∀ s s', P s → step s = .next s' → P s') (n : Nat) {s : State}
    (h : P s) : P (run n s).final := by
  induction n generalizing s with
  | zero => exact h
  | succ n ih =>
    rw [run]
    split
    · have ht := hstep _ _ h ‹_›
      split
      · exact ih ht
      · exact ht
    · exact h
    · exact h

end Sys2Proof.Machine
end

