-- ==== Sys2Proof/Laws/Memory.lean ====
section
/-! SUPPORT. The canonical form of memory is kept by every operation that writes it, and what a put does to each
address. -/

namespace Sys2Proof.Machine

/-- The canonical form from a lower bound, one cell at a time. -/
theorem wfFrom_cons (lo k : Nat) (v : Byte) (rest : Memory) :
    Memory.wfFrom lo ((k, v) :: rest) = true ↔
      (lo ≤ k ∧ k < memSize ∧ v ≠ unlistedByte) ∧ Memory.wfFrom (k + 1) rest = true := by
  simp [Memory.wfFrom, and_assoc]

/-- A canonical form from a bound is one from every lower bound. -/
theorem wfFrom_mono {lo lo' : Nat} (hle : lo' ≤ lo) {m : Memory} (h : Memory.wfFrom lo m = true) :
    Memory.wfFrom lo' m = true := by
  cases m with
  | nil => rfl
  | cons c rest =>
    rw [wfFrom_cons] at h ⊢
    exact ⟨⟨hle.trans h.1.1, h.1.2⟩, h.2⟩

/-- Below the bound nothing is listed. -/
theorem cellAt_of_lt {lo k : Nat} {m : Memory} (h : Memory.wfFrom lo m = true) (hlt : k < lo) :
    cellAt k m = unlistedByte := by
  induction m generalizing lo with
  | nil => rfl
  | cons c rest ih =>
    obtain ⟨k', v'⟩ := c
    rw [wfFrom_cons] at h
    have hne : k' ≠ k := by omega
    simp only [cellAt, hne, if_false]
    exact ih h.2 (by omega)

theorem wfFrom_consCell {lo k : Nat} {v : Byte} {rest : Memory} (hlo : lo ≤ k) (hk : k < memSize)
    (h : Memory.wfFrom (k + 1) rest = true) : Memory.wfFrom lo (consCell k v rest) = true := by
  unfold consCell
  split
  · exact wfFrom_mono (by omega) h
  · rw [wfFrom_cons]
    exact ⟨⟨hlo, hk, ‹_›⟩, h⟩

/-- A put of an address inside the space keeps the canonical form. -/
theorem wfFrom_putCell {lo k : Nat} {v : Byte} {m : Memory} (hlo : lo ≤ k) (hk : k < memSize)
    (h : Memory.wfFrom lo m = true) : Memory.wfFrom lo (putCell k v m) = true := by
  induction m generalizing lo with
  | nil => exact wfFrom_consCell hlo hk rfl
  | cons c rest ih =>
    obtain ⟨k', v'⟩ := c
    have hc := (wfFrom_cons lo k' v' rest).1 h
    unfold putCell
    split
    · refine wfFrom_consCell hlo hk ?_
      rw [wfFrom_cons]
      exact ⟨⟨by omega, hc.1.2⟩, hc.2⟩
    · split
      · subst k'
        exact wfFrom_consCell hlo hk hc.2
      · rw [wfFrom_cons]
        exact ⟨hc.1, ih (by omega) hc.2⟩

theorem cellAt_consCell {lo k j : Nat} {v : Byte} {rest : Memory} (h : Memory.wfFrom lo rest = true) (hlt : k < lo) :
    cellAt j (consCell k v rest) = if k = j then v else cellAt j rest := by
  unfold consCell
  split
  · split
    · subst j
      rw [cellAt_of_lt h hlt, ‹v = _›]
    · rfl
  · rfl

/-- What a put does to every address of a canonical memory. -/
theorem cellAt_putCell {lo k j : Nat} {v : Byte} {m : Memory} (h : Memory.wfFrom lo m = true) :
    cellAt j (putCell k v m) = if k = j then v else cellAt j m := by
  induction m generalizing lo with
  | nil => exact cellAt_consCell (lo := k + 1) rfl (by omega)
  | cons c rest ih =>
    obtain ⟨k', v'⟩ := c
    have hc := (wfFrom_cons lo k' v' rest).1 h
    unfold putCell
    split
    · refine cellAt_consCell (lo := k') ?_ ‹_›
      rw [wfFrom_cons]
      exact ⟨⟨le_rfl, hc.1.2⟩, hc.2⟩
    · split
      · subst k'
        rw [cellAt_consCell hc.2 (by omega)]
        split <;> simp_all [cellAt]
      · simp only [cellAt, ih hc.2]
        split
        · rw [if_neg]
          omega
        · rfl

/-! ## The operations of the model -/

theorem wf_nil : Memory.wf [] = true := rfl

/-- `MemWrite` keeps the canonical form. -/
theorem wf_write {m : Memory} (h : m.wf = true) (addr : Word) (v : Byte) : (m.write addr v).wf = true :=
  wfFrom_putCell (Nat.zero_le _) addr.isLt h

/-- Writing bytes one after another keeps the canonical form. -/
theorem wf_writeBytes {m : Memory} (h : m.wf = true) (addr : Word) (bs : List Byte) :
    (m.writeBytes addr bs).wf = true := by
  induction bs generalizing m addr with
  | nil => exact h
  | cons v rest ih => exact ih (wf_write h addr v) (addr + 1)

/-- Placing an instruction keeps the canonical form. -/
theorem wf_withFetchWord {s : State} (h : s.mem.wf = true) (nbits w : Nat) : (s.withFetchWord nbits w).mem.wf = true :=
  wf_writeBytes h _ _

/-- A host access keeps the canonical form. -/
theorem wf_portEffect {s : State} (h : s.mem.wf = true) (q : PortRequest) : (portEffect q s).mem.wf = true := by
  cases q with
  | writeMem addr v => exact wf_write h addr v
  | _ => exact h

end Sys2Proof.Machine
end

