-- ==== Sys2Proof/Laws/PerInstr.lean ====
section
/-! SUPPORT. The family EncodedLength: the encoder gives every instruction as many bytes as `len` says
(spec/30_encoding.md R80, R94), one lemma per constructor. -/

namespace Sys2Proof.Laws

/-- The instruction has an encoding in this spec's tables, and it is `len` bytes long. -/
def EncodedLength.Statement (i : Instr) : Prop := (encode Config.spec i).map List.length = some i.len

theorem EncodedLength.incBC : EncodedLength.Statement .incBC := rfl
theorem EncodedLength.decBC : EncodedLength.Statement .decBC := rfl
theorem EncodedLength.incDE : EncodedLength.Statement .incDE := rfl
theorem EncodedLength.decDE : EncodedLength.Statement .decDE := rfl
theorem EncodedLength.incHL : EncodedLength.Statement .incHL := rfl
theorem EncodedLength.decHL : EncodedLength.Statement .decHL := rfl
theorem EncodedLength.addAB : EncodedLength.Statement .addAB := rfl
theorem EncodedLength.addAC : EncodedLength.Statement .addAC := rfl
theorem EncodedLength.addAD : EncodedLength.Statement .addAD := rfl
theorem EncodedLength.addAE : EncodedLength.Statement .addAE := rfl
theorem EncodedLength.addAH : EncodedLength.Statement .addAH := rfl
theorem EncodedLength.addAL : EncodedLength.Statement .addAL := rfl
theorem EncodedLength.addAA : EncodedLength.Statement .addAA := rfl
theorem EncodedLength.jpNZ (target : Word) : EncodedLength.Statement (.jpNZ target) := rfl
theorem EncodedLength.jp (target : Word) : EncodedLength.Statement (.jp target) := rfl
theorem EncodedLength.jpZ (target : Word) : EncodedLength.Statement (.jpZ target) := rfl
theorem EncodedLength.prefixCB (sub : Byte) : EncodedLength.Statement (.prefixCB sub) := rfl
theorem EncodedLength.jpNC (target : Word) : EncodedLength.Statement (.jpNC target) := rfl
theorem EncodedLength.jpC (target : Word) : EncodedLength.Statement (.jpC target) := rfl

end Sys2Proof.Laws
end

