-- ==== Sys2Proof/Laws/Words.lean ====
section
/-! SUPPORT. Words taken apart and put together, as numbers, and `Add8` as numbers. -/

namespace Sys2Proof

theorem toNat_hi8 (v : Word) : (hi8 v).toNat = v.toNat / 256 := by
  have := v.isLt
  simp only [hi8, BitVec.extractLsb'_toNat, Nat.shiftRight_eq_div_pow]
  omega

theorem toNat_lo8 (v : Word) : (lo8 v).toNat = v.toNat % 256 := by
  simp only [lo8, BitVec.extractLsb'_toNat, Nat.shiftRight_eq_div_pow]
  omega

theorem toNat_join (hi lo : Byte) : (join hi lo).toNat = hi.toNat * 256 + lo.toNat := by
  have h1 := hi.isLt
  have h2 := lo.isLt
  rw [join, BitVec.toNat_ofNat, Nat.mod_eq_of_lt (by omega)]

@[simp] theorem hi8_join (hi lo : Byte) : hi8 (join hi lo) = hi := by
  have h2 := lo.isLt
  apply BitVec.eq_of_toNat_eq
  rw [toNat_hi8, toNat_join]
  omega

@[simp] theorem lo8_join (hi lo : Byte) : lo8 (join hi lo) = lo := by
  have h2 := lo.isLt
  apply BitVec.eq_of_toNat_eq
  rw [toNat_lo8, toNat_join]
  omega

@[simp] theorem join_hi8_lo8 (v : Word) : join (hi8 v) (lo8 v) = v := by
  apply BitVec.eq_of_toNat_eq
  rw [toNat_join, toNat_hi8, toNat_lo8]
  omega

namespace Machine

theorem toNat_lowNibble (v : Byte) : (lowNibble v).toNat = v.toNat % 16 := by
  simp [lowNibble, BitVec.extractLsb'_toNat]

/-- The result of `Add8` is the sum modulo 256. -/
theorem toNat_add8_result (x y : Byte) : (add8 x y).1.toNat = (x.toNat + y.toNat) % 256 := by
  have hx := x.isLt
  have hy := y.isLt
  simp [add8, BitVec.extractLsb'_toNat]

@[simp] theorem add8_n (x y : Byte) : (add8 x y).2.n = false := rfl

theorem add8_z (x y : Byte) : (add8 x y).2.z = ((add8 x y).1 == 0) := rfl

theorem add8_h (x y : Byte) : (add8 x y).2.h = decide (0xF < x.toNat % 16 + y.toNat % 16) := by
  simp only [add8, toNat_lowNibble]

theorem add8_c (x y : Byte) : (add8 x y).2.c = decide (0xFF < x.toNat + y.toNat) := by
  have hx := x.isLt
  have hy := y.isLt
  simp only [add8, BitVec.toNat_add, BitVec.toNat_setWidth, BitVec.zeroExtend]
  congr 2
  omega

end Machine

end Sys2Proof
end

