-- ==== Sys2Proof/Tests/Slice0.lean ====
section
/-! SUPPORT. Tests of the model. Every expected result is one of spec/95_test_vectors.md (its id stands in the comment) or
is written out by hand from the rule named. Then, for every statement with hypotheses, a witness that meets them. -/

namespace Sys2Proof.Tests

open Sys2Proof.Machine

/-! ## Well-formedness: an ill-formed term for each check -/

/-- Check 1: an opcode value twice in the primary table. -/
theorem test_primary_twice_refused :
    (Config.mk 0xCB 0 [(0x80, .add .b), (0x80, .add .c)] [] CodeFormat.spec).wellFormed = false := by decide

/-- Check 2: an opcode value twice in the secondary table. -/
theorem test_secondary_twice_refused :
    (Config.mk 0xCB 0 [] [(0x11, .add .b), (0x11, .add .b)] CodeFormat.spec).wellFormed = false := by decide

/-- Check 3: the prefix byte with an entry in the primary table. -/
theorem test_prefix_in_primary_refused :
    (Config.mk 0x80 0 [(0x80, .add .b)] [] CodeFormat.spec).wellFormed = false := by decide

/-- Check 4: an instruction whose entry the primary table lacks. -/
theorem test_missing_entry_refused :
    Instr.wellFormedIn (Config.mk 0xCB 0 [(0x80, .add .b)] [] CodeFormat.spec) .addAC = false := by decide

/-- Check 5: a prefix row whose second byte has a secondary entry. -/
theorem test_prefix_row_with_entry_refused :
    Instr.wellFormedIn (Config.mk 0xCB 0 [] [(0x11, .add .b)] CodeFormat.spec) (.prefixCB 0x11) = false := by decide

/-! ## Decoding: every constructor by a word written out from R81 and R88, and through the table's numbering -/

theorem test_decode_incBC : decodeBytes [0b00000011] = .ok .incBC ∧
    decodeTableWord 8 0x03 = some .incBC := by decide

theorem test_decode_decBC : decodeBytes [0b00001011] = .ok .decBC ∧
    decodeTableWord 8 0x0B = some .decBC := by decide

theorem test_decode_incDE : decodeBytes [0b00010011] = .ok .incDE ∧
    decodeTableWord 8 0x13 = some .incDE := by decide

theorem test_decode_decDE : decodeBytes [0b00011011] = .ok .decDE ∧
    decodeTableWord 8 0x1B = some .decDE := by decide

theorem test_decode_incHL : decodeBytes [0b00100011] = .ok .incHL ∧
    decodeTableWord 8 0x23 = some .incHL := by decide

theorem test_decode_decHL : decodeBytes [0b00101011] = .ok .decHL ∧
    decodeTableWord 8 0x2B = some .decHL := by decide

theorem test_decode_addAB : decodeBytes [0b10000000] = .ok .addAB ∧
    decodeTableWord 8 0x80 = some .addAB := by decide

theorem test_decode_addAC : decodeBytes [0b10000001] = .ok .addAC ∧
    decodeTableWord 8 0x81 = some .addAC := by decide

theorem test_decode_addAD : decodeBytes [0b10000010] = .ok .addAD ∧
    decodeTableWord 8 0x82 = some .addAD := by decide

theorem test_decode_addAE : decodeBytes [0b10000011] = .ok .addAE ∧
    decodeTableWord 8 0x83 = some .addAE := by decide

theorem test_decode_addAH : decodeBytes [0b10000100] = .ok .addAH ∧
    decodeTableWord 8 0x84 = some .addAH := by decide

theorem test_decode_addAL : decodeBytes [0b10000101] = .ok .addAL ∧
    decodeTableWord 8 0x85 = some .addAL := by decide

theorem test_decode_addAA : decodeBytes [0b10000111] = .ok .addAA ∧
    decodeTableWord 8 0x87 = some .addAA := by decide

theorem test_decode_jpNZ : decodeBytes [0b11000010, 0b00110100, 0b00010010] = .ok (.jpNZ 0x1234) ∧
    decodeTableWord 24 0x1234C2 = some (.jpNZ 0x1234) := by decide

theorem test_decode_jp : decodeBytes [0b11000011, 0b01010000, 0b00000001] = .ok (.jp 0x0150) ∧
    decodeTableWord 24 0x0150C3 = some (.jp 0x0150) := by decide

theorem test_decode_jpZ : decodeBytes [0b11001010, 0b00000000, 0b10000000] = .ok (.jpZ 0x8000) ∧
    decodeTableWord 24 0x8000CA = some (.jpZ 0x8000) := by decide

theorem test_decode_prefixCB : decodeBytes [0b11001011, 0b00110111] = .ok (.prefixCB 0x37) ∧
    decodeTableWord 16 0x37CB = some (.prefixCB 0x37) := by decide

theorem test_decode_jpNC : decodeBytes [0b11010010, 0b00010000, 0b00000000] = .ok (.jpNC 0x0010) ∧
    decodeTableWord 24 0x0010D2 = some (.jpNC 0x0010) := by decide

theorem test_decode_jpC : decodeBytes [0b11011010, 0b11111111, 0b11111110] = .ok (.jpC 0xFEFF) ∧
    decodeTableWord 24 0xFEFFDA = some (.jpC 0xFEFF) := by decide

/-- X2 to X5, X8: holes of the table and the digits of a code. -/
theorem test_decode_unknown :
    decodeBytes [0x86] = .error (.unknownOpcode "86") ∧ decodeBytes [0x33] = .error (.unknownOpcode "33") ∧
      decodeBytes [0xD3] = .error (.unknownOpcode "D3") ∧ decodeBytes [0x0A] = .error (.unknownOpcode "0A") ∧
        decode Config.spec (fun _ => 0xCB) = .error (.unknownOpcode "CBCB") ∧ decodeTableWord 8 0x00 = none := by decide

/-- R91's digits in the other letter case, lead and marker that D9 sets aside: `0xd3` and `0x$37`. -/
theorem test_code_format :
    primaryCode { Config.spec with code := ⟨.lower, "0x", .prefixDigits⟩ } 0xD3 = "0xd3" ∧
      secondaryCode { Config.spec with code := ⟨.upper, "0x", .text "$"⟩ } 0x37 = "0x$37" := by decide

/-- R96. -/
theorem test_asm_text : Instr.asmText .addAC = "ADD A,C" ∧ Instr.asmText (.jpNZ 0x1234) = "JP NZ,0x1234" := by decide

/-! ## One step on a small state -/

/-- Registers `a b c d e h l`, `f` as a byte, pc, and the bytes at pc; the rest of memory is zero. -/
def small (a b c d e h l f : Byte) (pc : Word) (bytes : List Byte) : State where
  regs := ⟨a, b, c, d, e, h, l⟩
  fl := flagsDecode f
  pc := pc
  mem := Memory.writeBytes [] pc bytes
  fatal := none

/-- The state a step answers. -/
def after (s : State) : Option State :=
  match step s with
  | .next t => some t
  | .fault _ => none
  | .refused _ => none

/-- `a`, `f`, pc and the latch of the state a step answers. -/
def accAfter (s : State) : Option (Byte × Byte × Word × Option FatalReason) :=
  (after s).map fun t => (t.regs.a, t.readF, t.pc, t.fatal)

/-- The whole register file, `f` and pc of the state a step answers. -/
def regsAfter (s : State) : Option (RegFile × Byte × Word) := (after s).map fun t => (t.regs, t.readF, t.pc)

/-- The step is fatal with that code and changes the latch alone. -/
def stopsWith (code : String) (s : State) : Bool :=
  decide (after s = some { s with fatal := some (.unknownOpcode code) })

/-- pc of the state a step answers, if every other field is as before. -/
def pcAfter (s : State) : Option Word :=
  (after s).bind fun t => if t = { s with pc := t.pc } then some t.pc else none

/-- A2. -/
theorem test_add_b_zero_and_carry :
    accAfter (small 0x80 0x80 0 0 0 0 0 0 0x0010 [0x80]) = some (0x00, 0x90, 0x0011, none) := by decide

/-- T3. -/
theorem test_add_c_no_flags :
    accAfter (small 0x01 0 0x02 0 0 0 0 0xF0 0x0010 [0x81]) = some (0x03, 0x00, 0x0011, none) := by decide

/-- T6. -/
theorem test_add_c_wraps :
    accAfter (small 0xFF 0 0x02 0 0 0 0 0 0x0010 [0x81]) = some (0x01, 0x30, 0x0011, none) := by decide

/-- A5. -/
theorem test_add_d_carry_alone :
    accAfter (small 0xF0 0 0 0x10 0 0 0 0 0x0010 [0x82]) = some (0x00, 0x90, 0x0011, none) := by decide

/-- A6. -/
theorem test_add_d_old_carry_not_added :
    accAfter (small 0x12 0 0 0 0 0 0 0x10 0x0010 [0x82]) = some (0x12, 0x00, 0x0011, none) := by decide

/-- A7. -/
theorem test_add_e_half_carry_at_16 :
    accAfter (small 0x08 0 0 0 0x08 0 0 0 0x0010 [0x83]) = some (0x10, 0x20, 0x0011, none) := by decide

/-- A8. -/
theorem test_add_e_largest :
    accAfter (small 0xFF 0 0 0 0xFF 0 0 0 0x0010 [0x83]) = some (0xFE, 0x30, 0x0011, none) := by decide

/-- A9. -/
theorem test_add_h_all_three :
    accAfter (small 0xFF 0 0 0 0 0x01 0 0 0x0010 [0x84]) = some (0x00, 0xB0, 0x0011, none) := by decide

/-- A10. -/
theorem test_add_l_exactly_256 :
    accAfter (small 0x3A 0 0 0 0 0 0xC6 0 0x0010 [0x85]) = some (0x00, 0xB0, 0x0011, none) := by decide

/-- A13. -/
theorem test_add_a_both_carries :
    accAfter (small 0x88 0 0 0 0 0 0 0 0x0010 [0x87]) = some (0x10, 0x30, 0x0011, none) := by decide

/-- A14. -/
theorem test_add_a_zero_doubled :
    accAfter (small 0 0 0 0 0 0 0 0x70 0x0010 [0x87]) = some (0x00, 0x80, 0x0011, none) := by decide

/-- A15: pc wraps at the top of the address space. -/
theorem test_add_at_top_wraps_pc :
    accAfter (small 0x01 0x01 0 0 0 0 0 0 0xFFFF [0x80]) = some (0x02, 0x00, 0x0000, none) := by decide

/-- J1. -/
theorem test_jp_nz_taken :
    pcAfter (small 0x5A 0 0 0 0 0 0 0 0x0100 [0xC2, 0x34, 0x12]) = some 0x1234 := by decide

/-- J3. -/
theorem test_jp_z_taken :
    pcAfter (small 0x5A 0 0 0 0 0 0 0x80 0x0200 [0xCA, 0x00, 0x80]) = some 0x8000 := by decide

/-- J4. -/
theorem test_jp_z_not_taken :
    pcAfter (small 0x5A 0 0 0 0 0 0 0x70 0x0200 [0xCA, 0x00, 0x80]) = some 0x0203 := by decide

/-- J5. -/
theorem test_jp_nc_taken :
    pcAfter (small 0x5A 0 0 0 0 0 0 0 0x0000 [0xD2, 0x10, 0x00]) = some 0x0010 := by decide

/-- J6. -/
theorem test_jp_nc_not_taken :
    pcAfter (small 0x5A 0 0 0 0 0 0 0x10 0x0000 [0xD2, 0x10, 0x00]) = some 0x0003 := by decide

/-- J7. -/
theorem test_jp_c_taken :
    pcAfter (small 0x5A 0 0 0 0 0 0 0x10 0x0300 [0xDA, 0xFF, 0xFF]) = some 0xFFFF := by decide

/-- J8. -/
theorem test_jp_c_not_taken :
    pcAfter (small 0x5A 0 0 0 0 0 0 0xE0 0x0300 [0xDA, 0xFF, 0xFF]) = some 0x0303 := by decide

/-- J10. -/
theorem test_jp_across_the_top :
    pcAfter (small 0x5A 0 0 0 0 0 0 0 0xFFFE [0xC3, 0x50, 0x01]) = some 0x0150 := by decide

/-- J11. -/
theorem test_jp_not_taken_wraps :
    pcAfter (small 0x5A 0 0 0 0 0 0 0x80 0xFFFE [0xC2, 0x00, 0x00]) = some 0x0001 := by decide

/-- J12. -/
theorem test_jp_opcode_in_last_byte :
    pcAfter (small 0x5A 0 0 0 0 0 0 0xF0 0xFFFF [0xC3, 0x00, 0x40]) = some 0x4000 := by decide

/-- P1. -/
theorem test_inc_bc_carry : regsAfter (small 0x77 0 0xFF 0 0 0 0 0 0x0040 [0x03]) =
    some (⟨0x77, 0x01, 0x00, 0x00, 0x00, 0x00, 0x00⟩, 0x00, 0x0041) := by decide

/-- P2. -/
theorem test_inc_bc_wraps : regsAfter (small 0x77 0xFF 0xFF 0 0 0 0 0 0x0040 [0x03]) =
    some (⟨0x77, 0x00, 0x00, 0x00, 0x00, 0x00, 0x00⟩, 0x00, 0x0041) := by decide

/-- P3. -/
theorem test_inc_de_keeps_flags : regsAfter (small 0x77 0 0 0x12 0x34 0 0 0xF0 0x0040 [0x13]) =
    some (⟨0x77, 0x00, 0x00, 0x12, 0x35, 0x00, 0x00⟩, 0xF0, 0x0041) := by decide

/-- P4. -/
theorem test_inc_hl_wraps_flags_kept : regsAfter (small 0x77 0 0 0 0 0xFF 0xFF 0x50 0x0040 [0x23]) =
    some (⟨0x77, 0x00, 0x00, 0x00, 0x00, 0x00, 0x00⟩, 0x50, 0x0041) := by decide

/-- P5. -/
theorem test_dec_bc_wraps : regsAfter (small 0x77 0 0 0 0 0 0 0 0x0040 [0x0B]) =
    some (⟨0x77, 0xFF, 0xFF, 0x00, 0x00, 0x00, 0x00⟩, 0x00, 0x0041) := by decide

/-- P6. -/
theorem test_dec_de_borrow : regsAfter (small 0x77 0 0 0x10 0 0 0 0 0x0040 [0x1B]) =
    some (⟨0x77, 0x00, 0x00, 0x0F, 0xFF, 0x00, 0x00⟩, 0x00, 0x0041) := by decide

/-- P7. -/
theorem test_dec_hl_to_zero : regsAfter (small 0x77 0 0 0 0 0 0x01 0x10 0x0040 [0x2B]) =
    some (⟨0x77, 0x00, 0x00, 0x00, 0x00, 0x00, 0x00⟩, 0x10, 0x0041) := by decide

/-- X2: only the latch changes. -/
theorem test_hole_in_add_row :
    stopsWith "86" (small 0x11 0 0 0 0 0 0 0x30 0x0040 [0x86]) = true := by decide

/-- X6: only the latch changes. -/
theorem test_prefixed :
    stopsWith "CB37" (small 0x11 0 0 0 0 0 0 0x30 0x0040 [0xCB, 0x37]) = true := by decide

/-- X7: only the latch changes. -/
theorem test_prefixed_across_the_top :
    stopsWith "CB11" (small 0x11 0 0 0 0 0 0 0x30 0xFFFF [0xCB, 0x11]) = true := by decide

/-- X1: the unloaded core. -/
theorem test_unloaded_core : after State.reset = some { State.reset with fatal := some (.unknownOpcode "00") } := by decide

/-- X11: a stopped block takes no step. -/
theorem test_stopped_block : after { State.reset with fatal := some (.unknownOpcode "00") } = none := by decide

/-! ## Memory, flags, pairs and the host port -/

/-- M1, M3: the top of memory. -/
theorem test_memory_top :
    Memory.readWord (Memory.writeBytes [] 0xFFFF [0xCD, 0xAB]) 0xFFFF = 0xABCD ∧
      Memory.read (Memory.write [] 0xFFFF 0x5A) 0xFFFF = 0x5A := by decide

/-- Writing what an unlisted address reads as removes the cell (R34, R52). -/
theorem test_memory_canonical : Memory.write (Memory.write [] 0x0100 0x81) 0x0100 0x00 = [] := by decide

/-- M4 and P7: a host's write is seen by the next fetch. -/
theorem test_host_write_is_fetched :
    regsAfter (portEffect (.writeMem 0x0100 0x2B) (small 0 0 0 0 0 0 1 0x10 0x0100 [])) =
      some (RegFile.zero, 0x10, 0x0101) := by decide

/-- T12 and section 2.1. -/
theorem test_flags_bytes :
    flagsEncode ⟨true, false, true, true⟩ = 0xB0 ∧ flagsEncode ⟨false, true, false, false⟩ = 0x40 ∧
      flagsDecode 0xAF = ⟨true, false, true, false⟩ ∧ flagsEncode (flagsDecode 0x5A) = 0x50 := by decide

/-- Section 2.2 and T2a. -/
theorem test_pair_views :
    (RegFile.mk 0 0x12 0x34 0 0xFF 0 0).getPair .bc = 0x1234 ∧ (RegFile.mk 0 0x12 0x34 0 0xFF 0 0).getPair .de = 0x00FF ∧
      RegFile.zero.setPair .hl 0xBEEF = ⟨0, 0, 0, 0, 0, 0xBE, 0xEF⟩ ∧ (State.reset.writeAF 0x12FF).readAF = 0x12F0 := by
  decide

/-- An instruction placed at pc is the first one to run after reset. -/
theorem test_placed_word_runs : pcAfter (State.reset.withFetchWord 24 0x1234C3) = some 0x1234 := by decide

/-! ## Witnesses: states and operands that meet the hypotheses of each statement together -/

/-- `INC BC` at 0x0100 with every flag set, in memory that also lists another byte. -/
def incState : State := small 0x88 1 0xFF 0 0 0 0 0xF0 0x0100 [0x03, 0x55]

/-- `ADD A,A` at 0x0100. -/
def addState : State := small 0x88 1 2 3 4 5 6 0 0x0100 [0x87]

/-- `JP 0xFFFE` at 0xFFFE: its bytes lie across the top of memory. -/
def idleState : State := small 0 0 0 0 0 0 0 0 0xFFFE [0xC3, 0xFE, 0xFF]

/-- A block stopped by `00`. -/
def stoppedState : State := { State.reset with fatal := some (.unknownOpcode "00") }

theorem witness_FlagsBytesRoundTrip : ∃ v : Byte, v.toNat % 16 = 0 ∧ v = 0xF0 := ⟨0xF0, by decide, rfl⟩

theorem witness_StepNeverSetsSubtract : ∃ s s', step s = .next s' ∧ s'.fl.n = true :=
  ⟨incState, _, rfl, by decide⟩

theorem witness_StepIgnoresSubtractAndHalfCarry : ∃ s t, step s = .next t ∧ s.fl.n = true := ⟨incState, _, rfl, by decide⟩

theorem witness_MemoryWriteChangesOneByte :
    ∃ (m : Memory) (addr other : Word), m.wf = true ∧ m ≠ [] ∧ other ≠ addr :=
  ⟨[(0, 5), (65535, 7)], 0xFFFF, 0x0000, by decide⟩

theorem witness_MemoriesReadingAlikeAreEqual :
    ∃ m m' : Memory, m.wf = true ∧ m'.wf = true ∧ m ≠ [] ∧ ∀ addr, m.read addr = m'.read addr :=
  ⟨[(65535, 7)], [(65535, 7)], by decide, by decide, by decide, fun _ => rfl⟩

theorem witness_StepNeverWritesMemory : ∃ s s', step s = .next s' ∧ s.mem ≠ [] := ⟨incState, _, rfl, by decide⟩

theorem witness_StepDependsOnlyOnTheFetchedBytes :
    ∃ (s t : State) (m' : Memory), m' ≠ s.mem ∧
      (∀ addr ∈ readsAt Config.spec s.mem s.pc, m'.read addr = s.mem.read addr) ∧ step s = .next t :=
  ⟨incState, _, [(0x0100, 0x03)], by decide, by
    have hr : readsAt Config.spec incState.mem incState.pc = [0x0100] := by decide
    rw [hr]
    intro addr h
    rw [List.mem_singleton.1 h]
    decide, rfl⟩

theorem witness_HostWriteIsSeenByTheNextFetch :
    ∃ (s : State) (i : Instr) (op : Byte), s.mem.wf = true ∧ s.fatal = none ∧ encode Config.spec i = some [op] :=
  ⟨addState, .decHL, 0x2B, by decide, rfl, by decide⟩

/-- Both clauses of the decoder's refusals, and the boundary values of three of the listed ranges. -/
theorem witness_UnknownOpcodesAreRefusedByTheDecoder :
    (∃ rd : Nat → Byte, rd 0 = 0xCB) ∧ decode Config.spec (fun _ => 0x02) = .error (.unknownOpcode "02") ∧
      decode Config.spec (fun _ => 0x86) = .error (.unknownOpcode "86") ∧
        decode Config.spec (fun _ => 0xFF) = .error (.unknownOpcode "FF") :=
  ⟨⟨fun _ => 0xCB, rfl⟩, by decide, by decide, by decide⟩

theorem witness_DecodeDependsOnlyOnTheBytesItReads :
    ∃ (cfg : Config) (m m' : Memory) (addr : Word), m ≠ m' ∧ ∀ a ∈ readsAt cfg m addr, m'.read a = m.read a :=
  ⟨Config.spec, idleState.mem, [(0xFFFF, 0xFE)], 0xFFFF, by decide, by
    have hr : readsAt Config.spec idleState.mem 0xFFFF = [0xFFFF] := by decide
    rw [hr]
    intro a h
    rw [List.mem_singleton.1 h]
    decide⟩

theorem witness_WellFormedInstructionsHaveAnEncoding :
    ∃ (cfg : Config) (i : Instr), i.wellFormedIn cfg = true ∧ cfg ≠ Config.spec :=
  ⟨⟨0x10, 0, [(0x42, .jp .nz)], [], CodeFormat.spec⟩, .jpNZ 0x1234, by decide⟩

theorem witness_DecodingAnEncodingGivesItBack :
    ∃ (cfg : Config) (i : Instr) (bs : List Byte) (rd : Nat → Byte),
      cfg.wellFormed = true ∧ i.wellFormedIn cfg = true ∧ encode cfg i = some bs ∧ ∀ k (hk : k < bs.length), rd k = bs[k] :=
  ⟨Config.spec, .jpNZ 0x1234, [0xC2, 0x34, 0x12], fun k => [0xC2, 0x34, 0x12].getD k 0, by decide, by decide, by decide,
    by decide⟩

theorem witness_EncodingADecodingGivesTheBytesBack :
    ∃ (rd : Nat → Byte) (i : Instr), decodeRow Config.spec rd = .ok i :=
  ⟨fun _ => 0xDA, .jpC 0xDADA, by decide⟩

/-- The three conditional clauses: both flags, zero alone, and a zero operand. -/
theorem witness_AddEightComputesResultAndFlags :
    ((add8 0x80 0x80).2.z = true ∧ (add8 0x80 0x80).2.c = true) ∧
      ((add8 0 0).2.z = true ∧ (add8 0 0).2.c = false) ∧ ∃ y : Byte, y = 0 := by decide

theorem witness_AddInstructions : ∃ s t i, i ∈ [Instr.addAB, .addAA] ∧ exec i s = .next t :=
  ⟨addState, _, .addAA, by decide, rfl⟩

theorem witness_AddAccumulatorToItselfDoubles : ∃ s t, exec .addAA s = .next t ∧ s.regs.a = 0x88 :=
  ⟨addState, _, rfl, rfl⟩

theorem witness_UnconditionalJumpCompletes : ∃ m : Memory, m.read 0xFFFE = 0xC3 := ⟨idleState.mem, by decide⟩

theorem witness_JumpsFrame : ∃ s t, ∃ i ∈ [Instr.jpNZ 0x1234, .jp 0x1234], exec i s = .next t :=
  ⟨addState, _, .jpNZ 0x1234, by decide, rfl⟩

theorem witness_PairInstructionsFrame : ∃ s t, ∃ i ∈ [(Instr.incBC, Pair.bc), (.decHL, .hl)], exec i.1 s = .next t :=
  ⟨addState, _, (.decHL, .hl), by decide, rfl⟩

theorem witness_StepRunsTheDecodedInstruction :
    ∃ (s : State) (i : Instr), s.fatal = none ∧ rowAt Config.spec s.mem s.pc = .ok i := ⟨incState, .incBC, rfl, by decide⟩

theorem witness_StepRunsTheEncodedInstruction :
    ∃ (s : State) (i : Instr) (bs : List Byte), s.fatal = none ∧ i.wellFormed = true ∧ encode Config.spec i = some bs ∧
      ∀ k (hk : k < bs.length), s.mem.read (s.pc + BitVec.ofNat 16 k) = bs[k] :=
  ⟨idleState, .jp 0xFFFE, [0xC3, 0xFE, 0xFF], rfl, by decide, by decide, by decide⟩

theorem witness_StepRunsThePlacedWord :
    ∃ (s : State) (nbits w : Nat) (i : Instr), s.fatal = none ∧ s.mem.wf = true ∧ decodeTableWord nbits w = some i :=
  ⟨idleState, 24, 0x1234C2, .jpNZ 0x1234, rfl, by decide, by decide⟩

/-- One witness for each clause of the next program counter: the prefix row, a jump, any other row. -/
theorem witness_NextProgramCounter :
    (∃ s t, exec (.prefixCB 0x37) s = .next t) ∧ (∃ s t, exec (.jpZ 0x1234) s = .next t) ∧ ∃ s t, exec .incBC s = .next t :=
  ⟨⟨addState, _, rfl⟩, ⟨addState, _, rfl⟩, ⟨addState, _, rfl⟩⟩

theorem witness_clear_latch : ∃ s : State, s.fatal = none ∧ s.isLaunch = true ∧ s ≠ State.reset :=
  ⟨addState, by decide⟩

theorem witness_StepKeepsTheInvariant : ∃ s s' : State, s.Inv ∧ step s = .next s' ∧ s.mem ≠ [] :=
  ⟨incState, _, ⟨by decide, by decide⟩, rfl, by decide⟩

theorem witness_TransactionsKeepTheInvariant :
    ∃ s s' : State, s.Inv ∧ transact (.port (.writeMem 0xFFFF 0x5A)) s = .next s' :=
  ⟨incState, _, ⟨by decide, by decide⟩, rfl⟩

theorem witness_FatalStepChangesOnlyTheLatch :
    ∃ s s' reason, step s = .next s' ∧ s'.fatal = some reason := ⟨State.reset, _, _, rfl, rfl⟩

theorem witness_UnknownFirstByteStopsTheMachine :
    ∃ s : State, s.fatal = none ∧ s.mem.read s.pc ≠ 0xCB ∧ Config.spec.primary.lookup (s.mem.read s.pc) = none :=
  ⟨small 0 0 0 0 0 0 0 0 0xFFFF [0xFF], by decide⟩

theorem witness_PrefixedOpcodeStopsTheMachine : ∃ s : State, s.fatal = none ∧ s.mem.read s.pc = 0xCB :=
  ⟨small 0 0 0 0 0 0 0 0 0xFFFF [0xCB, 0x37], by decide⟩

theorem witness_StoppedBlockStaysStoppedUntilReset :
    ∃ s s' reason t, s.fatal = some reason ∧ t ≠ Transaction.reset ∧ transact t s = .next s' :=
  ⟨stoppedState, _, _, .port (.writePc 0x0100), rfl, by decide, rfl⟩

/-- Both outcomes of the spec's own step. -/
theorem witness_StepMatchesTheSpecsStep :
    (idleState.fatal = none ∧ refStep idleState = .next idleState) ∧
      (State.reset.fatal = none ∧ refStep State.reset = .fatal (.unknownOpcode "00")) := by decide

theorem witness_StepIsFatalExactlyWhenDecodeFails :
    ∃ (s : State) (i : Instr), s.fatal = none ∧ instrVariant i ≠ none := ⟨addState, .addAA, by decide⟩

theorem witness_OnlyAStepSetsTheLatch :
    ∃ s s' t, s.fatal = none ∧ transact t s = .next s' ∧ s'.fatal ≠ none := ⟨State.reset, _, .step, rfl, rfl, by decide⟩

theorem witness_HostReadsBackWhatItWrites : ∃ s : State, s.mem.wf = true ∧ s.mem ≠ [] := ⟨incState, by decide⟩

theorem witness_HostWriteChangesOnlyWhatItNames :
    ∃ (s : State) (r q : Reg8) (p : Pair) (addr other : Word), s.mem.wf = true ∧ s.mem ≠ [] ∧ q ≠ r ∧ q ≠ highReg p ∧
      q ≠ lowReg p ∧ q ≠ Reg8.a ∧ other ≠ addr :=
  ⟨incState, .c, .b, .hl, 0xFFFF, 0x0000, by decide⟩

theorem witness_CodeFormatChangesTheCodesOnly :
    ∃ (cfg : Config) (f : CodeFormat) (rd : Nat → Byte) (i : Instr), f ≠ cfg.code ∧ decodeRow cfg rd = .ok i :=
  ⟨Config.spec, ⟨.lower, "0x", .text "$"⟩, fun _ => 0x81, .addAC, by decide⟩

theorem witness_LoaderPlacesTheImage :
    ∃ (s : State) (image : List Byte), s.mem.wf = true ∧ image.length ≤ memSize ∧ image ≠ [] ∧ s.mem ≠ [] :=
  ⟨incState, [0x81, 0x00, 0x03], by decide⟩

/-- Both outcomes of the first step of a run. -/
theorem witness_RunsStopOnlyByAFatalStep :
    (idleState.isLaunch = true ∧ stepOutcome idleState = some (.next idleState)) ∧
      (State.reset.isLaunch = true ∧ stepOutcome State.reset = some (.fatal (.unknownOpcode "00"))) := by decide

/-- Both ways a run can go: on through a clear step, and stopped by the first one. -/
theorem witness_Runs :
    (idleState.isLaunch = true ∧ (run 2 idleState).stopped = none) ∧
      (State.reset.isLaunch = true ∧ (run 2 State.reset).stopped = some (.unknownOpcode "00")) := by decide

theorem witness_JumpToItselfStaysForEver :
    ∃ s : State, s.fatal = none ∧ s.mem.read s.pc = 0xC3 ∧ s.mem.readWord (s.pc + 1) = s.pc := ⟨idleState, by decide⟩

end Sys2Proof.Tests
end

section
/-! PROOFS about the packed byte of the flags (spec/10_state.md R24, R25): its bits, its low nibble, the two round trips. -/

namespace Sys2Proof.Machine

/-- Bit by bit, the encoded byte is the four one-flag masks of R24 joined. -/
theorem getLsbD_flagsEncode (fl : Flags) (i : Nat) :
    (flagsEncode fl).getLsbD i =
      (fl.z && (0x80 : Byte).getLsbD i || fl.n && (0x40 : Byte).getLsbD i || fl.h && (0x20 : Byte).getLsbD i ||
        fl.c && (0x10 : Byte).getLsbD i) := by
  have mask (b : Bool) (m : Byte) : (if b then m else 0).getLsbD i = (b && m.getLsbD i) := by cases b <;> simp
  simp only [flagsEncode, BitVec.getLsbD_or, mask]

theorem flagsEncode_bit7 (fl : Flags) : (flagsEncode fl).getLsbD 7 = fl.z := by
  rw [getLsbD_flagsEncode]; simp

theorem flagsEncode_bit6 (fl : Flags) : (flagsEncode fl).getLsbD 6 = fl.n := by
  rw [getLsbD_flagsEncode]; simp

theorem flagsEncode_bit5 (fl : Flags) : (flagsEncode fl).getLsbD 5 = fl.h := by
  rw [getLsbD_flagsEncode]; simp

theorem flagsEncode_bit4 (fl : Flags) : (flagsEncode fl).getLsbD 4 = fl.c := by
  rw [getLsbD_flagsEncode]; simp

@[simp] theorem flagsDecode_flagsEncode (fl : Flags) : flagsDecode (flagsEncode fl) = fl := by
  simp only [flagsDecode, flagsEncode_bit7, flagsEncode_bit6, flagsEncode_bit5, flagsEncode_bit4]

/-- The masked round trip of R25, on each of the eight bits. -/
@[simp] theorem flagsEncode_flagsDecode (v : Byte) : flagsEncode (flagsDecode v) = v &&& 0xF0 := by
  apply BitVec.eq_of_getLsbD_eq
  intro i hi
  rw [getLsbD_flagsEncode, BitVec.getLsbD_and]
  interval_cases i <;> simp [flagsDecode]

/-- Clearing the low nibble rounds a byte down to a multiple of 16. -/
theorem toNat_and_F0 (v : Byte) : (v &&& 0xF0).toNat = v.toNat / 16 * 16 := by
  have hshift : v &&& (0xF0 : Byte) = (v >>> 4) <<< 4 := by
    apply BitVec.eq_of_getLsbD_eq
    intro i hi
    rw [BitVec.getLsbD_and, BitVec.getLsbD_shiftLeft, BitVec.getLsbD_ushiftRight]
    interval_cases i <;> simp
  rw [hshift, BitVec.toNat_shiftLeft, BitVec.toNat_ushiftRight, Nat.shiftLeft_eq, Nat.shiftRight_eq_div_pow]
  have hv := v.isLt
  omega

theorem and_F0_eq_self_iff (v : Byte) : v &&& 0xF0 = v ↔ v.toNat % 16 = 0 := by
  rw [← BitVec.toNat_inj, toNat_and_F0]
  omega

/-- An encoded byte comes back from both conversions, so the mask of the low nibble leaves it as it is. -/
theorem toNat_flagsEncode_mod_16 (fl : Flags) : (flagsEncode fl).toNat % 16 = 0 := by
  rw [← and_F0_eq_self_iff, ← flagsEncode_flagsDecode, flagsDecode_flagsEncode]

end Sys2Proof.Machine

open Sys2Proof.Machine

/-- Settles O2: the four bits and the low nibble for every flag set, the example by evaluation. -/
theorem flagsEncodePlacesEachFlag : Obligations.FlagsEncodePlacesEachFlag := fun fl =>
  ⟨flagsEncode_bit7 fl, flagsEncode_bit6 fl, flagsEncode_bit5 fl, flagsEncode_bit4 fl, toNat_flagsEncode_mod_16 fl,
    by decide⟩

/-- Settles O3: the exact round trip is the masked one on a byte the mask leaves as it is. -/
theorem flagsBytesRoundTrip : Obligations.FlagsBytesRoundTrip :=
  ⟨fun _ => rfl, flagsEncode_flagsDecode,
    fun v hv => (flagsEncode_flagsDecode v).trans ((and_F0_eq_self_iff v).mpr hv), flagsDecode_flagsEncode⟩

end

section
/-! PROOFS about reads of memory (spec/20_memory.md R52, R53): the byte read after a write to the same and to another
address, the 16-bit read as a natural number. -/

namespace Sys2Proof.Machine

theorem read_write_same {m : Memory} (h : m.wf = true) (addr : Word) (v : Byte) : (m.write addr v).read addr = v :=
  (cellAt_putCell h).trans (if_pos rfl)

theorem read_write_other {m : Memory} (h : m.wf = true) {addr other : Word} (hne : other ≠ addr) (v : Byte) :
    (m.write addr v).read other = m.read other :=
  have hcell : addr.toNat ≠ other.toNat := fun heq => hne (BitVec.eq_of_toNat_eq heq.symm)
  (cellAt_putCell h).trans (if_neg hcell)

theorem toNat_readWord (m : Memory) (addr : Word) :
    (m.readWord addr).toNat = (m.read addr).toNat + 256 * (m.read (addr + 1)).toNat := by
  rw [Memory.readWord, toNat_join]
  omega

end Sys2Proof.Machine

open Sys2Proof Sys2Proof.Machine

/-- Settles O9: the address read is the one written, or another one. -/
theorem memoryWriteChangesOneByte : Obligations.MemoryWriteChangesOneByte := by
  intro m addr other v h
  split
  case isTrue heq => rw [heq, read_write_same h]
  case isFalse hne => exact read_write_other h hne v

/-- Settles O11: the wrapping clause is the first one at 0xFFFF, whose next address is 0x0000. -/
theorem wordReadIsLittleEndianAndWraps : Obligations.WordReadIsLittleEndianAndWraps :=
  have hwrap : (0xFFFF : Word) + 1 = 0x0000 := by decide
  ⟨toNat_readWord, fun m => hwrap ▸ toNat_readWord m 0xFFFF⟩

end

section
/-! PROOFS about `Add8` (spec/40_arith_accumulate.md R110): each flag as a condition on the operands' numbers, and what the
result and the flags say of each other. -/

namespace Sys2Proof.Machine

theorem add8_z_iff (x y : Byte) : (add8 x y).2.z = true ↔ (x.toNat + y.toNat) % 256 = 0 := by
  rw [add8_z, beq_iff_eq, ← BitVec.toNat_inj, toNat_add8_result]
  rfl

theorem add8_h_iff (x y : Byte) : (add8 x y).2.h = true ↔ x.toNat % 16 + y.toNat % 16 > 0xF := by
  rw [add8_h, decide_eq_true_iff]

theorem add8_c_iff (x y : Byte) : (add8 x y).2.c = true ↔ x.toNat + y.toNat > 0xFF := by
  rw [add8_c, decide_eq_true_iff]

theorem add8_comm (x y : Byte) : add8 x y = add8 y x := by
  simp only [add8, BitVec.add_comm, Nat.add_comm]

/-- A sum that wraps falls below each operand, one that does not wrap stays at or above both. -/
theorem add8_c_iff_result_lt_left (x y : Byte) : (add8 x y).2.c = true ↔ (add8 x y).1.toNat < x.toNat := by
  have hx := x.isLt
  have hy := y.isLt
  rw [add8_c_iff, toNat_add8_result]
  omega

theorem add8_c_iff_result_lt_right (x y : Byte) : (add8 x y).2.c = true ↔ (add8 x y).1.toNat < y.toNat := by
  rw [add8_comm]
  exact add8_c_iff_result_lt_left y x

/-- The low nibble of the result is the low nibbles' sum modulo 16, so half-carry is its wrap. -/
theorem add8_h_iff_result_nibble_lt (x y : Byte) :
    (add8 x y).2.h = true ↔ (add8 x y).1.toNat % 16 < x.toNat % 16 := by
  have hnibble : (add8 x y).1.toNat % 16 = (x.toNat % 16 + y.toNat % 16) % 16 := by
    rw [toNat_add8_result]
    omega
  rw [add8_h_iff, hnibble]
  omega

/-- Two bytes add to less than 512, so a zero result with carry is exactly one wrap. -/
theorem sum_eq_256_of_add8_z_of_c {x y : Byte} (hz : (add8 x y).2.z = true) (hc : (add8 x y).2.c = true) :
    x.toNat + y.toNat = 256 := by
  have hx := x.isLt
  have hy := y.isLt
  rw [add8_z_iff] at hz
  rw [add8_c_iff] at hc
  omega

theorem operands_eq_zero_of_add8_z_of_not_c {x y : Byte} (hz : (add8 x y).2.z = true) (hc : (add8 x y).2.c = false) :
    x = 0 ∧ y = 0 := by
  rw [add8_z_iff] at hz
  rw [← Bool.not_eq_true, add8_c_iff] at hc
  have hsum : x.toNat + y.toNat = 0 := by omega
  obtain ⟨hx, hy⟩ := Nat.add_eq_zero_iff.mp hsum
  exact ⟨BitVec.eq_of_toNat_eq hx, BitVec.eq_of_toNat_eq hy⟩

theorem add8_zero_result (x : Byte) : (add8 x 0).1 = x := by
  apply BitVec.eq_of_toNat_eq
  rw [toNat_add8_result]
  exact Nat.mod_eq_of_lt x.isLt

/-- Adding zero leaves byte and nibble as they are, and neither is below itself. -/
theorem add8_zero_c (x : Byte) : (add8 x 0).2.c = false := by
  rw [← Bool.not_eq_true, add8_c_iff_result_lt_left, add8_zero_result]
  exact lt_irrefl _

theorem add8_zero_h (x : Byte) : (add8 x 0).2.h = false := by
  rw [← Bool.not_eq_true, add8_h_iff_result_nibble_lt, add8_zero_result]
  exact lt_irrefl _

end Sys2Proof.Machine

open Sys2Proof.Machine

/-- Settles O26: the result and each flag as numbers, then the wraps and the zero results read off them. -/
theorem addEightComputesResultAndFlags : Obligations.AddEightComputesResultAndFlags := fun x y =>
  ⟨⟨toNat_add8_result x y, add8_z_iff x y, add8_n x y, add8_h_iff x y, add8_c_iff x y⟩,
    add8_c_iff_result_lt_left x y, add8_c_iff_result_lt_right x y, add8_h_iff_result_nibble_lt x y,
    sum_eq_256_of_add8_z_of_c, operands_eq_zero_of_add8_z_of_not_c,
    fun hy => hy ▸ ⟨add8_zero_h x, add8_zero_c x, add8_zero_result x⟩⟩

end

section
/-! PROOFS about fatal stops (spec/60_exceptions.md R160): what the step does for each answer of `Decode`. -/

namespace Sys2Proof.Machine

/-- `Decode` of R86 reads the row and turns `prefixCB` into a failure. -/
theorem decodeAt_eq_rowAt_bind (cfg : Config) (m : Memory) (addr : Word) :
    decodeAt cfg m addr = (rowAt cfg m addr).bind (Instr.decoded cfg) := by
  unfold decodeAt decode rowAt
  cases decodeRow cfg (bytesAt m addr) <;> rfl

/-- An instruction with a variant is any row but `prefixCB`, and `Decode` answers it as it is. -/
theorem decoded_of_instrVariant {i : Instr} (hi : instrVariant i ≠ none) (cfg : Config) : i.decoded cfg = .ok i := by
  cases i with
  | prefixCB sub => exact absurd rfl hi
  | _ => rfl

/-- An instruction with a variant completes and leaves the latch alone: the one row that sets it has none. -/
theorem exec_keeps_latch {i : Instr} (hi : instrVariant i ≠ none) (s : State) :
    ∃ t, exec i s = .next t ∧ t.fatal = s.fatal := by
  rcases exec_cases s i with ⟨r, he⟩ | ⟨k, t, he⟩ | ⟨p, he⟩ | ⟨p, he⟩ | ⟨sub, rfl, _⟩
  · exact ⟨_, he, addAccum_fatal s r⟩
  · exact ⟨_, he, jumpIf_fatal s k t⟩
  · exact ⟨_, he, incPair_fatal s p⟩
  · exact ⟨_, he, decPair_fatal s p⟩
  · exact absurd rfl hi

theorem eq_prefixCB_of_instrVariant_none {i : Instr} (hi : instrVariant i = none) : ∃ sub, i = .prefixCB sub := by
  cases i with
  | prefixCB sub => exact ⟨sub, rfl⟩
  | _ => cases hi

/-- What a step of an unlatched block does, by the answer of `Decode`: it makes a failure the fatal reason, and runs an
instruction without setting the latch. -/
theorem step_cases_decodeAt {s : State} (h : s.fatal = none) :
    (∃ f, decodeAt Config.spec s.mem s.pc = .error f ∧ step s = .next (s.raiseFatal (failureReason f))) ∨
      (∃ i t, decodeAt Config.spec s.mem s.pc = .ok i ∧ step s = .next t ∧ t.fatal = none) := by
  rw [decodeAt_eq_rowAt_bind]
  rcases step_cases h with ⟨code, hrow, hstep⟩ | ⟨i, hrow, hstep⟩ <;> rw [hrow]
  · exact .inl ⟨.unknownOpcode code, rfl, hstep⟩
  · by_cases hi : instrVariant i = none
    · obtain ⟨sub, rfl⟩ := eq_prefixCB_of_instrVariant_none hi
      exact .inl ⟨.unknownOpcode (secondaryCode Config.spec sub), rfl, hstep⟩
    · obtain ⟨t, hexec, hfatal⟩ := exec_keeps_latch hi s
      exact .inr ⟨i, t, decoded_of_instrVariant hi Config.spec, hstep.trans hexec, hfatal.trans h⟩

/-- From a clear latch the fatal reasons of a step are the failures of `Decode`, and no others. -/
theorem stepOutcome_eq_fatal_iff_decodeAt {s : State} (h : s.fatal = none) (reason : FatalReason) :
    stepOutcome s = some (.fatal reason) ↔
      ∃ f, decodeAt Config.spec s.mem s.pc = .error f ∧ failureReason f = reason := by
  rw [stepOutcome_eq_fatal]
  rcases step_cases_decodeAt h with ⟨f, hdec, hstep⟩ | ⟨i, t, hdec, hstep, hfatal⟩
  · simp [hdec, hstep]
  · simp [hdec, hstep, hfatal]

theorem failureReason_eq_unknownOpcode {f : DecodeFailure} {code : String} :
    failureReason f = .unknownOpcode code ↔ f = .unknownOpcode code := by
  cases f
  simp [failureReason]

theorem failureReason_ne_undispatched (f : DecodeFailure) : failureReason f ≠ .undispatched := by
  cases f
  simp [failureReason]

end Sys2Proof.Machine

open Sys2Proof Sys2Proof.Machine

/-- Settles O45: a step's fatal reasons are the decoder's failures, each of them an unknown opcode. -/
theorem stepIsFatalExactlyWhenDecodeFails : Obligations.StepIsFatalExactlyWhenDecodeFails := by
  intro s h
  refine ⟨fun code => ?_, fun hund => ?_, fun i hi => ?_⟩
  · simp [stepOutcome_eq_fatal_iff_decodeAt h, failureReason_eq_unknownOpcode]
  · obtain ⟨f, _, hf⟩ := (stepOutcome_eq_fatal_iff_decodeAt h _).mp hund
    exact failureReason_ne_undispatched f hf
  · obtain ⟨t, hexec, hfatal⟩ := exec_keeps_latch hi s
    exact ⟨t, hexec, hfatal.trans h⟩

end

section
/-! PROOFS about the encoder (spec/30_encoding.md R81 to R90): what an encoding is made of, its length, and the two round
trips with the decoder. -/

namespace Sys2Proof

/-! ## The bytes of an instruction -/

/-- An encoding is one opcode byte and the operand bytes; the opcode is `prefixByte` for the row with no entry, and the
table's for any other. -/
theorem encode_cases {cfg : Config} {i : Instr} {bs : List Byte} (h : encode cfg i = some bs) :
    (i.entry = none ∧ bs = cfg.prefixByte :: i.operandBytes) ∨
      ∃ e op, i.entry = some e ∧ opcodeOf cfg.primary e = some op ∧ bs = op :: i.operandBytes := by
  unfold encode at h
  split at h
  case h_1 he => exact .inl ⟨he, (Option.some.inj h).symm⟩
  case h_2 e he =>
    obtain ⟨op, hop, hbs⟩ := Option.map_eq_some_iff.mp h
    exact .inr ⟨e, op, he, hop, hbs.symm⟩

theorem encode_of_entry_none {i : Instr} (cfg : Config) (h : i.entry = none) :
    encode cfg i = some (cfg.prefixByte :: i.operandBytes) := by
  rw [encode, h]

theorem encode_of_opcodeOf {cfg : Config} {i : Instr} {e : Entry} {op : Byte} (he : i.entry = some e)
    (hop : opcodeOf cfg.primary e = some op) : encode cfg i = some (op :: i.operandBytes) := by
  simp [encode, he, hop]

theorem length_operandBytes (i : Instr) : i.operandBytes.length + 1 = i.len := by
  cases i <;> rfl

/-! ## Well-formed instructions -/

theorem mem_primary_of_wellFormedIn {cfg : Config} {i : Instr} {e : Entry} (he : i.entry = some e)
    (h : i.wellFormedIn cfg = true) : e ∈ cfg.primary.map Prod.snd := by
  simpa only [Instr.wellFormedIn, he, List.contains_iff_mem] using h

theorem secondary_none_of_wellFormedIn {cfg : Config} {sub : Byte} (h : (Instr.prefixCB sub).wellFormedIn cfg = true) :
    cfg.secondary.lookup sub = none :=
  Option.isNone_iff_eq_none.mp h

theorem exists_encode_of_wellFormedIn {cfg : Config} {i : Instr} (h : i.wellFormedIn cfg = true) :
    ∃ op, encode cfg i = some (op :: i.operandBytes) := by
  cases he : i.entry with
  | none => exact ⟨_, encode_of_entry_none cfg he⟩
  | some e =>
    obtain ⟨op, hop⟩ := Option.isSome_iff_exists.mp (opcodeOf_isSome (mem_primary_of_wellFormedIn he h))
    exact ⟨op, encode_of_opcodeOf he hop⟩

/-! ## Decoding an encoding -/

/-- The facts an unambiguous configuration stands for. -/
theorem wellFormed_iff (cfg : Config) :
    cfg.wellFormed = true ↔ tableUnambiguous cfg.primary = true ∧ tableUnambiguous cfg.secondary = true ∧
      cfg.primary.lookup cfg.prefixByte = none := by
  simp [Config.wellFormed, and_assoc]

/-- `prefixByte` has no primary entry, so an opcode of the primary table is another byte. -/
theorem ne_prefixByte_of_lookup {cfg : Config} {op : Byte} {e : Entry} (h : cfg.wellFormed = true)
    (hl : cfg.primary.lookup op = some e) : op ≠ cfg.prefixByte := by
  obtain ⟨_, _, hnone⟩ := (wellFormed_iff cfg).mp h
  rintro rfl
  cases hnone.symm.trans hl

/-- An entry completed with a target read after the opcode is the instruction whose operand bytes stand there. -/
theorem instr_of_operandBytes {i : Instr} {e : Entry} {rd : Nat → Byte} (he : i.entry = some e)
    (hrd : ∀ k (hk : k < i.operandBytes.length), rd (k + 1) = i.operandBytes[k]) :
    e.instr (join (rd 2) (rd 1)) = i := by
  cases i with
  | prefixCB sub => cases he
  | jpNZ t | jp t | jpZ t | jpNC t | jpC t =>
    have hlo : rd 1 = lo8 t := hrd 0 Nat.two_pos
    have hhi : rd 2 = hi8 t := hrd 1 Nat.one_lt_two
    cases he
    rw [hlo, hhi, join_hi8_lo8]
    rfl
  | _ => cases he; rfl

theorem decodeRow_of_encode {cfg : Config} {i : Instr} {bs : List Byte} {rd : Nat → Byte} (hcfg : cfg.wellFormed = true)
    (hi : i.wellFormedIn cfg = true) (henc : encode cfg i = some bs) (hrd : ∀ k (hk : k < bs.length), rd k = bs[k]) :
    decodeRow cfg rd = .ok i := by
  rcases encode_cases henc with ⟨he, rfl⟩ | ⟨e, op, he, hop, rfl⟩
  · obtain ⟨sub, rfl⟩ := eq_prefixCB_of_entry_none he
    have hsub : rd 1 = sub := hrd 1 (Nat.lt_add_one 1)
    rw [← hsub] at hi ⊢
    exact decodeRow_prefixed (hrd 0 Nat.two_pos) (secondary_none_of_wellFormedIn hi)
  · have hfirst : rd 0 = op := hrd 0 (Nat.succ_pos _)
    have hlookup : cfg.primary.lookup (rd 0) = some e :=
      hfirst ▸ lookup_of_mem ((wellFormed_iff cfg).mp hcfg).1 (mem_of_opcodeOf hop)
    rw [decodeRow_primary (ne_prefixByte_of_lookup hcfg hlookup) hlookup]
    rw [instr_of_operandBytes he fun k hk => hrd (k + 1) (Nat.succ_lt_succ hk)]

/-! ## Encoding a decoding, in the tables of this spec -/

/-- An entry a lookup finds stands in the table with that opcode. -/
theorem mem_of_lookup {t : List (Byte × Entry)} {op : Byte} {e : Entry} (h : t.lookup op = some e) : (op, e) ∈ t := by
  obtain ⟨front, rest, rfl, _⟩ := List.lookup_eq_some_iff.mp h
  exact List.mem_append_right front List.mem_cons_self

/-- No entry of R88 stands under two opcodes, so the encoder finds the one it was read from. -/
theorem opcodeOf_of_lookup_spec {op : Byte} {e : Entry} (h : Config.spec.primary.lookup op = some e) :
    opcodeOf Config.spec.primary e = some op := by
  have hall : ∀ row ∈ Config.spec.primary, opcodeOf Config.spec.primary row.2 = some row.1 := by decide
  exact hall (op, e) (mem_of_lookup h)

/-- A completed entry's bytes are the opcode and, for a jump, the two target bytes as they were read. -/
theorem map_range_len_instr (e : Entry) (rd : Nat → Byte) :
    (List.range (e.instr (join (rd 2) (rd 1))).len).map rd = rd 0 :: (e.instr (join (rd 2) (rd 1))).operandBytes := by
  cases e with
  | add r => cases r <;> rfl
  | jp k => cases k <;> simp [Entry.instr, Instr.len, Instr.operandBytes, List.range_succ]
  | incPair p => cases p <;> rfl
  | decPair p => cases p <;> rfl

theorem encode_of_decodeRow_spec {rd : Nat → Byte} {i : Instr} (h : decodeRow Config.spec rd = .ok i) :
    encode Config.spec i = some ((List.range i.len).map rd) := by
  by_cases hp : rd 0 = Config.spec.prefixByte
  · rw [decodeRow_prefixed hp rfl] at h
    cases h
    change some [Config.spec.prefixByte, rd 1] = some [rd 0, rd 1]
    rw [hp]
  · cases hl : Config.spec.primary.lookup (rd 0) with
    | none =>
      rw [decodeRow_unknown hp hl] at h
      cases h
    | some e =>
      rw [decodeRow_primary hp hl] at h
      cases h
      rw [map_range_len_instr]
      exact encode_of_opcodeOf (entry_instr e _) (opcodeOf_of_lookup_spec hl)

theorem wellFormed_spec : Config.spec.wellFormed = true := by decide

theorem wellFormed_instr (i : Instr) : i.wellFormed = true := by
  cases i <;> rfl

end Sys2Proof

open Sys2Proof

/-- Settles O24: for `prefixCB` and for a row of the table, the lookup finds the opcode again and the bytes after it are the
operands. -/
theorem decodingAnEncodingGivesItBack : Obligations.DecodingAnEncodingGivesItBack := fun _ _ _ _ => decodeRow_of_encode

/-- Settles O23: the encoding is an opcode and the operand bytes, one fewer than `len`. -/
theorem wellFormedInstructionsHaveAnEncoding : Obligations.WellFormedInstructionsHaveAnEncoding := by
  intro cfg i h
  obtain ⟨op, hop⟩ := exists_encode_of_wellFormedIn h
  exact ⟨_, hop, length_operandBytes i⟩

/-- Settles O25: an entry read from the table of R88 is encoded by the opcode it was read under. -/
theorem encodingADecodingGivesTheBytesBack : Obligations.EncodingADecodingGivesTheBytesBack := fun _ _ =>
  encode_of_decodeRow_spec

/-- Settles O22: the tables by evaluation, the instructions constructor by constructor. -/
theorem specTablesAreUnambiguousAndComplete : Obligations.SpecTablesAreUnambiguousAndComplete :=
  ⟨wellFormed_spec, wellFormed_instr⟩

/-- Settles O15: the 256 opcode bytes by evaluation. -/
theorem fieldViewReproducesThePrimaryTable : Obligations.FieldViewReproducesThePrimaryTable := by
  unfold Obligations.FieldViewReproducesThePrimaryTable
  decide

/-- Settles O16: the ten words by evaluation. -/
theorem sampleWordsDecode : Obligations.SampleWordsDecode := by
  unfold Obligations.SampleWordsDecode
  decide

/-- Settles O19: `len` reads the constructor alone, so every list is checked as it stands. -/
theorem lengthsAreOneOrThree : Obligations.LengthsAreOneOrThree := by
  refine ⟨by decide, by decide, fun t => ?_, fun _ => rfl⟩
  simp [Instr.len]

end

section
/-! PROOFS about what every step and every transaction keeps: the memory, the subtract flag, the invariant, the latch
(spec/10_state.md R26, spec/20_memory.md R66, spec/43_step_and_dispatch.md R141 to R145, spec/60_exceptions.md R160 to
R168). -/

namespace Sys2Proof.Machine

/-! ## What a step leaves of each field -/

theorem step_mem {s s' : State} (h : step s = .next s') : s'.mem = s.mem := by
  rcases step_next_cases h with ⟨r, rfl⟩ | ⟨k, t, rfl⟩ | ⟨p, rfl⟩ | ⟨p, rfl⟩ | ⟨code, rfl⟩
  · exact addAccum_mem s r
  · exact jumpIf_mem s k t
  · exact incPair_mem s p
  · exact decPair_mem s p
  · exact raiseFatal_mem s _

/-- A step leaves the flags alone, or it is an add, whose subtract flag is false. -/
theorem step_fl_cases {s s' : State} (h : step s = .next s') : s'.fl = s.fl ∨ s'.fl.n = false := by
  rcases step_next_cases h with ⟨r, rfl⟩ | ⟨k, t, rfl⟩ | ⟨p, rfl⟩ | ⟨p, rfl⟩ | ⟨code, rfl⟩
  · exact .inr (add8_n s.regs.a (s.regs.get r))
  · exact .inl (jumpIf_fl s k t)
  · exact .inl (incPair_fl s p)
  · exact .inl (decPair_fl s p)
  · exact .inl (raiseFatal_fl s _)

/-- A step leaves the latch clear, or it is the fatal stop of an unknown opcode. -/
theorem step_latch_cases {s s' : State} (h : step s = .next s') :
    s'.fatal = none ∨ ∃ code, s' = s.raiseFatal (.unknownOpcode code) := by
  have hclear := fatal_none_of_step h
  rcases step_next_cases h with ⟨r, rfl⟩ | ⟨k, t, rfl⟩ | ⟨p, rfl⟩ | ⟨p, rfl⟩ | hfatal
  · exact .inl ((addAccum_fatal s r).trans hclear)
  · exact .inl ((jumpIf_fatal s k t).trans hclear)
  · exact .inl ((incPair_fatal s p).trans hclear)
  · exact .inl ((decPair_fatal s p).trans hclear)
  · exact .inr hfatal

theorem eq_raiseFatal_of_step {s s' : State} {reason : FatalReason} (h : step s = .next s')
    (hf : s'.fatal = some reason) : s' = s.raiseFatal reason := by
  rcases step_latch_cases h with hclear | ⟨code, rfl⟩
  · cases hclear.symm.trans hf
  · cases hf
    rfl

/-! ## The invariant -/

theorem latchWf_iff (s : State) : s.latchWf = true ↔ s.fatal ≠ some .undispatched := bne_iff_ne

theorem inv_of_step {s s' : State} (hinv : s.Inv) (h : step s = .next s') : s'.Inv := by
  refine ⟨(step_mem h).symm ▸ hinv.1, (latchWf_iff s').mpr ?_⟩
  rcases step_latch_cases h with hclear | ⟨code, rfl⟩
  · simp [hclear]
  · simp

theorem portEffect_fatal (q : PortRequest) (s : State) : (portEffect q s).fatal = s.fatal := by
  cases q <;> rfl

theorem inv_portEffect {s : State} (hinv : s.Inv) (q : PortRequest) : (portEffect q s).Inv := by
  obtain ⟨hmem, hlatch⟩ := hinv
  refine ⟨wf_portEffect hmem q, ?_⟩
  rwa [State.latchWf, portEffect_fatal]

theorem inv_reset : State.reset.Inv := ⟨wf_nil, by decide⟩

/-! ## The three transactions, and the step by what the decoder answers -/

@[simp] theorem transact_port (q : PortRequest) (s : State) : transact (.port q) s = .next (portEffect q s) := rfl

@[simp] theorem transact_reset (s : State) : transact .reset s = .next State.reset := rfl

theorem step_of_rowAt {s : State} {i : Instr} (h : s.fatal = none) (hrow : rowAt Config.spec s.mem s.pc = .ok i) :
    step s = exec i s := by
  simp only [step, h, hrow]

theorem step_of_rowAt_error {s : State} {code : String} (h : s.fatal = none)
    (hrow : rowAt Config.spec s.mem s.pc = .error (.unknownOpcode code)) :
    step s = .next (s.raiseFatal (.unknownOpcode code)) := by
  simp only [step, h, hrow, failureReason]

theorem step_of_latched {s : State} {reason : FatalReason} (h : s.fatal = some reason) :
    step s = .fault (.stopped reason) := by
  rw [step, h]

theorem stepOutcome_of_latched {s : State} {reason : FatalReason} (h : s.fatal = some reason) :
    stepOutcome s = none := by
  rw [stepOutcome, step_of_latched h]

/-! ## Completion -/

theorem exec_completes (i : Instr) (s : State) : ∃ t, exec i s = .next t := by
  rcases exec_cases s i with ⟨r, h⟩ | ⟨k, t, h⟩ | ⟨p, h⟩ | ⟨p, h⟩ | ⟨sub, _, h⟩ <;> exact ⟨_, h⟩

theorem step_completes {s : State} (h : s.fatal = none) : ∃ t, step s = .next t := by
  rcases step_cases h with ⟨code, _, hstep⟩ | ⟨i, _, hstep⟩
  · exact ⟨_, hstep⟩
  · obtain ⟨t, hexec⟩ := exec_completes i s
    exact ⟨t, hstep.trans hexec⟩

/-! ## Two blocks that read the same row -/

/-- Whatever the state, an instruction does the one operation its constructor names. -/
theorem exec_operation (i : Instr) :
    (∃ r, ∀ s, exec i s = .next (s.addAccum r)) ∨ (∃ k t, ∀ s, exec i s = .next (s.jumpIf k t)) ∨
      (∃ p, ∀ s, exec i s = .next (s.incPair p)) ∨ (∃ p, ∀ s, exec i s = .next (s.decPair p)) ∨
        ∃ code, ∀ s, exec i s = .next (s.raiseFatal (.unknownOpcode code)) := by
  cases i with
  | addAB | addAC | addAD | addAE | addAH | addAL | addAA => exact .inl ⟨_, fun _ => rfl⟩
  | jpNZ t | jp t | jpZ t | jpNC t | jpC t => exact .inr (.inl ⟨_, t, fun _ => rfl⟩)
  | incBC | incDE | incHL => exact .inr (.inr (.inl ⟨_, fun _ => rfl⟩))
  | decBC | decDE | decHL => exact .inr (.inr (.inr (.inl ⟨_, fun _ => rfl⟩)))
  | prefixCB sub => exact .inr (.inr (.inr (.inr ⟨_, fun _ => rfl⟩)))

/-- Two unlatched blocks whose bytes at pc hold the same row do the same operation in their steps. -/
theorem step_cases_of_same_row {s s' : State} (h : s.fatal = none) (h' : s'.fatal = none)
    (hrow : rowAt Config.spec s'.mem s'.pc = rowAt Config.spec s.mem s.pc) :
    (∃ r, step s = .next (s.addAccum r) ∧ step s' = .next (s'.addAccum r)) ∨
      (∃ k t, step s = .next (s.jumpIf k t) ∧ step s' = .next (s'.jumpIf k t)) ∨
        (∃ p, step s = .next (s.incPair p) ∧ step s' = .next (s'.incPair p)) ∨
          (∃ p, step s = .next (s.decPair p) ∧ step s' = .next (s'.decPair p)) ∨
            ∃ reason, step s = .next (s.raiseFatal reason) ∧ step s' = .next (s'.raiseFatal reason) := by
  simp only [step, h, h', hrow]
  cases rowAt Config.spec s.mem s.pc with
  | error f => exact .inr (.inr (.inr (.inr ⟨_, rfl, rfl⟩)))
  | ok i =>
    rcases exec_operation i with ⟨r, he⟩ | ⟨k, t, he⟩ | ⟨p, he⟩ | ⟨p, he⟩ | ⟨code, he⟩
    · exact .inl ⟨r, he s, he s'⟩
    · exact .inr (.inl ⟨k, t, he s, he s'⟩)
    · exact .inr (.inr (.inl ⟨p, he s, he s'⟩))
    · exact .inr (.inr (.inr (.inl ⟨p, he s, he s'⟩)))
    · exact .inr (.inr (.inr (.inr ⟨_, he s, he s'⟩)))

theorem evalCond_ignores_n_h (k : Cond) (fl : Flags) (n h : Bool) : evalCond k { fl with n := n, h := h } = evalCond k fl := by
  cases k <;> rfl

end Sys2Proof.Machine

open Sys2Proof Sys2Proof.Machine

/-- Settles O42: a step keeps the memory, and the latch it leaves is clear or an unknown opcode's. -/
theorem stepKeepsTheInvariant : Obligations.StepKeepsTheInvariant := fun _ _ => inv_of_step

/-- Settles O43: the step by O42's lemma, a host access by what it may write, reset by its value. -/
theorem transactionsKeepTheInvariant : Obligations.TransactionsKeepTheInvariant := by
  intro t s s' hinv h
  cases t with
  | step => exact inv_of_step hinv h
  | port q =>
    cases h
    exact inv_portEffect hinv q
  | reset =>
    cases h
    exact inv_reset

/-- Settles O51: no cell is listed and the latch is clear. -/
theorem resetMeetsTheInvariant : Obligations.ResetMeetsTheInvariant := inv_reset

/-- Settles O12: no operation a step can do writes memory. -/
theorem stepNeverWritesMemory : Obligations.StepNeverWritesMemory := fun _ _ h =>
  ⟨step_mem h, fun addr => congrArg (·.read addr) (step_mem h)⟩

/-- Settles O7: a step keeps the flags or clears the subtract flag. -/
theorem stepNeverSetsSubtract : Obligations.StepNeverSetsSubtract := by
  intro s s' h hn
  rcases step_fl_cases h with hfl | hclear
  · rwa [hfl] at hn
  · cases hclear.symm.trans hn

/-- Settles O8: both blocks do the same operation, and the one that reads flags reads zero and carry alone. -/
theorem stepIgnoresSubtractAndHalfCarry : Obligations.StepIgnoresSubtractAndHalfCarry := by
  intro s t n h hstep
  have hclear := fatal_none_of_step hstep
  rcases step_cases_of_same_row (s' := { s with fl := { s.fl with n := n, h := h } }) hclear hclear rfl with
    ⟨r, hs, hs'⟩ | ⟨k, a16, hs, hs'⟩ | ⟨p, hs, hs'⟩ | ⟨p, hs, hs'⟩ | ⟨reason, hs, hs'⟩ <;>
    cases hs.symm.trans hstep <;> refine ⟨_, hs', rfl, ?_, rfl, rfl, rfl, rfl⟩
  case inr.inl => simp only [jumpIf_pc, evalCond_ignores_n_h]
  all_goals rfl

/-- Settles O44: the latch is tested before anything is fetched, and no host access writes it. -/
theorem stoppedBlockStaysStoppedUntilReset : Obligations.StoppedBlockStaysStoppedUntilReset := by
  intro s reason h
  refine ⟨⟨step_of_latched h, stepOutcome_of_latched h⟩, fun t s' ht hnext => ?_, rfl, rfl⟩
  cases t with
  | step => cases (step_of_latched h).symm.trans hnext
  | port q =>
    cases hnext
    exact (portEffect_fatal q s).trans h
  | reset => exact absurd rfl ht

/-- Settles O46: of the operations a step can do only the fatal stop leaves a set latch. -/
theorem fatalStepChangesOnlyTheLatch : Obligations.FatalStepChangesOnlyTheLatch := fun _ _ _ => eq_raiseFatal_of_step

/-- Settles O49: a host access keeps the clear latch and reset clears it. -/
theorem onlyAStepSetsTheLatch : Obligations.OnlyAStepSetsTheLatch := by
  intro s s' t h hnext hset
  cases t with
  | step => rfl
  | port q =>
    cases hnext
    exact absurd ((portEffect_fatal q s).trans h) hset
  | reset =>
    cases hnext
    exact absurd rfl hset

/-- Settles O36: with a clear latch and a decoded row the step is the dispatch of that row. -/
theorem stepRunsTheDecodedInstruction : Obligations.StepRunsTheDecodedInstruction := fun _ _ => step_of_rowAt

/-- Settles O39: every arm answers a next state, and so does every answer of the decoder. -/
theorem everyInstructionAndStepCompletes : Obligations.EveryInstructionAndStepCompletes :=
  ⟨exec_completes, fun _ => step_completes⟩

end

section
/-! PROOFS about the register file and its views (spec/10_state.md R20, R21, R27, R28): the bytes of a pair, what a pair
write leaves, the round trips of the pairs and of `af`, and the host port built on them (R35). -/

namespace Sys2Proof

/-! ## The two bytes of a word -/

theorem hi8_eq_ofNat (v : Word) : hi8 v = BitVec.ofNat 8 (v.toNat / 256) := by
  rw [← toNat_hi8, BitVec.ofNat_toNat, BitVec.setWidth_eq]

theorem lo8_eq_ofNat (v : Word) : lo8 v = BitVec.ofNat 8 (v.toNat % 256) := by
  rw [← toNat_lo8, BitVec.ofNat_toNat, BitVec.setWidth_eq]

/-- A mask of a word is a mask of each byte; this one leaves the upper byte as it is. -/
theorem and_FFF0_eq_join (v : Word) : v &&& 0xFFF0 = join (hi8 v) (lo8 v &&& 0xF0) := by
  have hhi : hi8 (v &&& 0xFFF0) = hi8 v := BitVec.extractLsb'_and.trans BitVec.and_allOnes
  have hlo : lo8 (v &&& 0xFFF0) = lo8 v &&& 0xF0 := BitVec.extractLsb'_and
  rw [← hhi, ← hlo, join_hi8_lo8]

namespace Machine

/-! ## The pair views -/

theorem highReg_ne_lowReg (p : Pair) : highReg p ≠ lowReg p := by
  cases p <;> decide

theorem get_highReg_setPair (rf : RegFile) (p : Pair) (v : Word) : (rf.setPair p v).get (highReg p) = hi8 v := by
  rw [RegFile.setPair, get_set_other _ _ _ _ (highReg_ne_lowReg p), get_set_same]

theorem get_lowReg_setPair (rf : RegFile) (p : Pair) (v : Word) : (rf.setPair p v).get (lowReg p) = lo8 v :=
  get_set_same _ _ _

theorem get_setPair_other (rf : RegFile) (p : Pair) (v : Word) {r : Reg8} (hhigh : r ≠ highReg p) (hlow : r ≠ lowReg p) :
    (rf.setPair p v).get r = rf.get r := by
  rw [RegFile.setPair, get_set_other _ _ _ _ hlow, get_set_other _ _ _ _ hhigh]

@[simp] theorem getPair_setPair (rf : RegFile) (p : Pair) (v : Word) : (rf.setPair p v).getPair p = v := by
  rw [RegFile.getPair, get_highReg_setPair, get_lowReg_setPair, join_hi8_lo8]

/-! ## The `af` view -/

theorem writeF_readF (s : State) (v : Byte) : (s.writeF v).readF = v &&& 0xF0 := flagsEncode_flagsDecode v

/-- The encoded byte is one the mask of the upper nibble leaves as it is, and the two nibble masks share no bit. -/
theorem flagsEncode_and_0F (fl : Flags) : flagsEncode fl &&& 0x0F = 0 := by
  have hself : flagsEncode fl &&& 0xF0 = flagsEncode fl := (and_F0_eq_self_iff _).mpr (toNat_flagsEncode_mod_16 fl)
  rw [← hself, BitVec.and_assoc]
  exact BitVec.and_zero

theorem writeAF_readAF (s : State) (v : Word) : (s.writeAF v).readAF = v &&& 0xFFF0 :=
  calc (s.writeAF v).readAF = join (hi8 v) (flagsEncode (flagsDecode (lo8 v))) := rfl
    _ = v &&& 0xFFF0 := by rw [flagsEncode_flagsDecode, and_FFF0_eq_join]

theorem and_FFF0_eq_self_iff (v : Word) : v &&& 0xFFF0 = v ↔ v.toNat % 16 = 0 := by
  have hbyte : v &&& 0xFFF0 = v ↔ lo8 v &&& 0xF0 = lo8 v := by
    rw [and_FFF0_eq_join]
    refine ⟨fun h => ?_, fun h => by rw [h, join_hi8_lo8]⟩
    simpa using congrArg lo8 h
  rw [hbyte, and_F0_eq_self_iff, toNat_lo8]
  omega

end Machine

end Sys2Proof

open Sys2Proof Sys2Proof.Machine

/-- Settles O1: the register read is the one written, or another one. -/
theorem registerWritesAreIndependent : Obligations.RegisterWritesAreIndependent := by
  intro rf r q v
  split
  case isTrue heq => rw [heq, get_set_same]
  case isFalse hne => exact get_set_other rf r q v hne

/-- Settles O4: `f` is the encoding of the flags, so R25 and the shape of the encoded byte give every clause. -/
theorem flagRegisterIsAViewOfTheFlags : Obligations.FlagRegisterIsAViewOfTheFlags := fun s v =>
  ⟨rfl, rfl, writeF_readF s v, flagsEncode_and_0F s.fl⟩

/-- Settles O5: a pair read is a join, a pair write the two bytes of its value. -/
theorem pairsAreViewsOfTwoRegisters : Obligations.PairsAreViewsOfTwoRegisters := by
  intro s v
  rw [← hi8_eq_ofNat, ← lo8_eq_ofNat]
  exact ⟨⟨toNat_join _ _, toNat_join _ _, toNat_join _ _⟩, ⟨rfl, rfl, rfl⟩, toNat_join _ _, rfl⟩

/-- Settles O6: the pairs exactly, `af` through the mask of the flags' byte. -/
theorem pairsReadBack : Obligations.PairsReadBack :=
  ⟨getPair_setPair, writeAF_readAF, fun s v => by rw [writeAF_readAF, and_FFF0_eq_self_iff]⟩

/-- Settles O53: the port's reads and writes are those of the views and of memory. -/
theorem hostReadsBackWhatItWrites : Obligations.HostReadsBackWhatItWrites := fun s =>
  ⟨fun r v => congrArg PortReply.byte (get_set_same s.regs r v), fun v => congrArg PortReply.byte (writeF_readF s v),
    fun _ => rfl, fun p v => congrArg PortReply.word (getPair_setPair s.regs p v),
    fun v => congrArg PortReply.word (writeAF_readAF s v), fun _ => rfl,
    fun hmem addr v => congrArg PortReply.byte (read_write_same hmem addr v), rfl⟩

/-- Settles O58: each request writes one field; within the register file and the memory, the frame of that write. -/
theorem hostWriteChangesOnlyWhatItNames : Obligations.HostWriteChangesOnlyWhatItNames := by
  intro s
  refine ⟨fun q => ⟨transact_port q s, fun hread => ?_⟩, fun r v => ⟨rfl, fun q => get_set_other s.regs r q v⟩,
    fun _ => rfl, fun _ => rfl, fun p v => ⟨rfl, fun _ => get_setPair_other s.regs p v⟩,
    fun v => ⟨rfl, fun q => get_set_other s.regs .a q (hi8 v)⟩, fun _ => rfl,
    fun addr v => ⟨rfl, fun hmem _ hne => read_write_other hmem hne v⟩⟩
  cases q with
  | readReg | readF | readFlags | readPair | readAF | readPc | readMem | readDiagnostic => rfl
  | writeReg | writeF | writeFlags | writePair | writeAF | writePc | writeMem => exact absurd rfl hread

end

section
/-! PROOFS about the whole memory (spec/20_memory.md R50, spec/70_reset_and_hazards.md R183): a canonical list is decided
by what it reads as, and what bytes written one after another read back as. -/

namespace Sys2Proof.Machine

/-! ## The canonical form is unique -/

theorem cellAt_cons_of_ne {k j : Nat} {v : Byte} {rest : Memory} (h : k ≠ j) : cellAt j ((k, v) :: rest) = cellAt j rest :=
  if_neg h

/-- The first cell of a canonical list does not read as an unlisted address, so no list that reads alike starts above it. -/
theorem bound_le_head {lo k : Nat} {v : Byte} {rest m : Memory} (h : Memory.wfFrom lo ((k, v) :: rest) = true)
    (hread : ∀ j < memSize, cellAt j ((k, v) :: rest) = cellAt j m) {lo' : Nat} (hm : Memory.wfFrom lo' m = true) :
    lo' ≤ k := by
  obtain ⟨⟨_, hk, hv⟩, _⟩ := (wfFrom_cons lo k v rest).mp h
  by_contra hlt
  have hzero : cellAt k m = unlistedByte := cellAt_of_lt hm (by omega)
  exact hv ((if_pos rfl).symm.trans ((hread k hk).trans hzero))

/-- Up to and including the first cell's address the rest of a canonical list reads as unlisted. -/
theorem cellAt_rest {lo k j : Nat} {v : Byte} {rest : Memory} (h : Memory.wfFrom lo ((k, v) :: rest) = true) :
    cellAt j rest = if j ≤ k then unlistedByte else cellAt j ((k, v) :: rest) := by
  obtain ⟨_, hrest⟩ := (wfFrom_cons lo k v rest).mp h
  split
  case isTrue hle => exact cellAt_of_lt hrest (by omega)
  case isFalse hgt => exact (cellAt_cons_of_ne (by omega)).symm

/-- Canonical lists that read alike start with the same cell, and what follows reads alike. -/
theorem eq_of_cellAt_eq {m m' : Memory} {lo lo' : Nat} (h : Memory.wfFrom lo m = true) (h' : Memory.wfFrom lo' m' = true)
    (hread : ∀ j < memSize, cellAt j m = cellAt j m') : m = m' := by
  induction m generalizing m' lo lo' with
  | nil =>
    cases m' with
    | nil => rfl
    | cons c' rest' =>
      have hbelow := bound_le_head (lo' := c'.1 + 1) h' (fun j hj => (hread j hj).symm) rfl
      omega
  | cons c rest ih =>
    obtain ⟨k, v⟩ := c
    cases m' with
    | nil =>
      have hbelow := bound_le_head (lo' := k + 1) h hread rfl
      omega
    | cons c' rest' =>
      obtain ⟨k', v'⟩ := c'
      obtain ⟨⟨_, hk, hv⟩, hrest⟩ := (wfFrom_cons lo k v rest).mp h
      obtain ⟨⟨_, hk', hv'⟩, hrest'⟩ := (wfFrom_cons lo' k' v' rest').mp h'
      have hle : k' ≤ k := bound_le_head h hread ((wfFrom_cons k' k' v' rest').mpr ⟨⟨le_rfl, hk', hv'⟩, hrest'⟩)
      have hge : k ≤ k' := bound_le_head h' (fun j hj => (hread j hj).symm)
        ((wfFrom_cons k k v rest).mpr ⟨⟨le_rfl, hk, hv⟩, hrest⟩)
      obtain rfl : k = k' := le_antisymm hge hle
      obtain rfl : v = v' := by simpa [cellAt] using hread k hk
      rw [ih hrest hrest' fun j hj => by rw [cellAt_rest h, cellAt_rest h', hread j hj]]

/-! ## Bytes written one after another -/

/-- The byte `k` past an address is the address itself only where `k` is a multiple of 65,536. -/
theorem add_ofNat_ne_self (addr : Word) {k : Nat} (hpos : 0 < k) (hk : k < memSize) : addr + BitVec.ofNat 16 k ≠ addr := by
  intro h
  have hnat : (addr.toNat + k % 65536) % 65536 = addr.toNat := by simpa using congrArg BitVec.toNat h
  have haddr := addr.isLt
  rw [memSize] at hk
  omega

theorem add_one_add_ofNat (addr : Word) (k : Nat) : addr + 1 + BitVec.ofNat 16 k = addr + BitVec.ofNat 16 (k + 1) := by
  rw [Nat.add_comm, BitVec.ofNat_add, BitVec.add_assoc]
  rfl

theorem read_writeBytes_other {m : Memory} (h : m.wf = true) {base addr : Word} {bs : List Byte}
    (hne : ∀ k < bs.length, addr ≠ base + BitVec.ofNat 16 k) : (m.writeBytes base bs).read addr = m.read addr := by
  induction bs generalizing m base with
  | nil => rfl
  | cons v rest ih =>
    have hhead : addr ≠ base := by simpa using hne 0 (Nat.succ_pos _)
    have htail : ∀ k < rest.length, addr ≠ base + 1 + BitVec.ofNat 16 k := fun k hk => by
      rw [add_one_add_ofNat]
      exact hne (k + 1) (Nat.succ_lt_succ hk)
    exact (ih (wf_write h base v) htail).trans (read_write_other h hhead v)

/-- No byte of an image that fits in memory is written over by a later one. -/
theorem read_writeBytes_of_lt {m : Memory} (h : m.wf = true) (base : Word) {bs : List Byte} (hlen : bs.length ≤ memSize)
    {k : Nat} (hk : k < bs.length) : (m.writeBytes base bs).read (base + BitVec.ofNat 16 k) = bs[k] := by
  induction bs generalizing m base k with
  | nil => cases hk
  | cons v rest ih =>
    rw [List.length_cons] at hlen hk
    cases k with
    | zero =>
      have hlater : ∀ k < rest.length, base + BitVec.ofNat 16 0 ≠ base + 1 + BitVec.ofNat 16 k := fun k hk => by
        rw [add_one_add_ofNat, BitVec.add_zero]
        exact (add_ofNat_ne_self base k.succ_pos (by omega)).symm
      refine (read_writeBytes_other (wf_write h base v) hlater).trans ?_
      rw [BitVec.add_zero, read_write_same h, List.getElem_cons_zero]
    | succ k =>
      rw [← add_one_add_ofNat]
      exact ih (wf_write h base v) (base + 1) (by omega) (by omega)

/-- The loader's accesses are the writes of memory alone. -/
theorem transactAll_loaderWrites (s : State) (base : Word) (image : List Byte) :
    transactAll (loaderWrites base image) s = .next (s.setMem (s.mem.writeBytes base image)) := by
  induction image generalizing s base with
  | nil => rfl
  | cons v rest ih => exact ih (s.setMem (s.mem.write base v)) (base + 1)

end Sys2Proof.Machine

open Sys2Proof Sys2Proof.Machine

/-- Settles O10: the addresses read are all that a canonical list can hold. -/
theorem memoriesReadingAlikeAreEqual : Obligations.MemoriesReadingAlikeAreEqual := by
  intro m m' h h' hread
  refine eq_of_cellAt_eq h h' fun j hj => ?_
  have haddr : (BitVec.ofNat 16 j).toNat = j := Nat.mod_eq_of_lt hj
  simpa only [Memory.read, haddr] using hread (BitVec.ofNat 16 j)

/-- Settles O54: the loader's accesses write the image's bytes one after another. -/
theorem loaderPlacesTheImage : Obligations.LoaderPlacesTheImage := fun s base image hmem hlen =>
  ⟨_, transactAll_loaderWrites s base image, rfl, fun _ => read_writeBytes_of_lt hmem base hlen,
    fun _ => read_writeBytes_other hmem⟩

end

section
/-! PROOFS about the codes of unknown opcodes and about the bytes the decoder reads (spec/30_encoding.md R90 to R92, R99,
spec/00_scope.md R5). -/

namespace Sys2Proof

/-! ## The digits of a byte (R91) -/

theorem length_hexDigits (k : LetterCase) : (hexDigits k).length = 16 := by
  cases k <;> rfl

theorem nodup_hexDigits (k : LetterCase) : (hexDigits k).Nodup := by
  cases k <;> decide

/-- Below 16 the default of the digit's lookup is never used. -/
theorem getD_hexDigits (k : LetterCase) (d : Char) {i : Nat} (hi : i < 16) :
    (hexDigits k).getD i d = (hexDigits k)[i]'((length_hexDigits k).symm ▸ hi) :=
  List.getD_eq_getElem _ d _

theorem getD_hexDigits_inj (k : LetterCase) {i j : Nat} (hi : i < 16) (hj : j < 16)
    (h : (hexDigits k).getD i '0' = (hexDigits k).getD j '0') : i = j := by
  rw [getD_hexDigits k _ hi, getD_hexDigits k _ hj] at h
  exact (nodup_hexDigits k).getElem_inj_iff.mp h

theorem div_16_lt (v : Byte) : v.toNat / 16 < 16 := by
  have hv := v.isLt
  omega

theorem mod_16_lt (v : Byte) : v.toNat % 16 < 16 := Nat.mod_lt _ (by decide)

@[simp] theorem toList_hexByte (k : LetterCase) (v : Byte) : (hexByte k v).toList = hexChars k v := String.toList_ofList

theorem length_hex2 (v : Byte) : (hex2 v).length = 2 := String.length_ofList

/-- The two digits give the two nibbles back, in either letter case. -/
theorem hexByte_inj (k : LetterCase) {v w : Byte} (h : hexByte k v = hexByte k w) : v = w := by
  have hchars : hexChars k v = hexChars k w := String.ofList_inj.mp h
  obtain ⟨hupper, hlower, _⟩ : _ ∧ _ ∧ _ := by simpa only [hexChars, List.cons.injEq] using hchars
  have hdiv := getD_hexDigits_inj k (div_16_lt v) (div_16_lt w) hupper
  have hmod := getD_hexDigits_inj k (mod_16_lt v) (mod_16_lt w) hlower
  apply BitVec.eq_of_toNat_eq
  omega

/-- The digits in upper case are those in lower case turned to upper case, one by one. -/
theorem map_toUpper_hexChars (v : Byte) : (hexChars .lower v).map Char.toUpper = hexChars .upper v := by
  have hdigits : hexDigits .upper = (hexDigits .lower).map Char.toUpper := by decide
  have hdigit (i : Nat) : ((hexDigits .lower).getD i '0').toUpper = (hexDigits .upper).getD i '0' := by
    rw [hdigits]
    exact (List.getD_map _ _ Char.toUpper).symm
  simp only [hexChars, List.map_cons, List.map_nil, hdigit]

/-- A prefixed code is two characters longer than a primary one. -/
theorem prefixed_code_ne_hex2 (sub op : Byte) : "CB" ++ hex2 sub ≠ hex2 op := by
  intro h
  have hlen : "CB".length + 2 = 2 := by simpa only [String.length_append, length_hex2] using congrArg String.length h
  cases hlen

/-! ## What `Decode` of R86 answers -/

namespace Machine

theorem instrVariant_instr_ne_none (e : Entry) (t : Word) : instrVariant (e.instr t) ≠ none := by
  intro h
  obtain ⟨sub, hsub⟩ := eq_prefixCB_of_instrVariant_none h
  cases (congrArg Instr.entry hsub).symm.trans (entry_instr e t)

theorem decode_eq_ok_iff (cfg : Config) (rd : Nat → Byte) (i : Instr) :
    decode cfg rd = .ok i ↔ decodeRow cfg rd = .ok i ∧ instrVariant i ≠ none := by
  unfold decode
  cases decodeRow cfg rd with
  | error f => simp
  | ok j =>
    by_cases hj : instrVariant j = none
    · obtain ⟨sub, rfl⟩ := eq_prefixCB_of_instrVariant_none hj
      simp only [Instr.decoded, reduceCtorEq, Except.ok.injEq, false_iff, not_and]
      rintro rfl
      exact not_not_intro hj
    · simp only [decoded_of_instrVariant hj, Except.ok.injEq]
      refine ⟨?_, And.left⟩
      rintro rfl
      exact ⟨rfl, hj⟩

theorem decode_prefixed {cfg : Config} {rd : Nat → Byte} (hp : rd 0 = cfg.prefixByte)
    (hl : cfg.secondary.lookup (rd 1) = none) :
    decode cfg rd = .error (.unknownOpcode (secondaryCode cfg (rd 1))) := by
  rw [decode, decodeRow_prefixed hp hl]
  rfl

theorem decode_unknown {cfg : Config} {rd : Nat → Byte} (hp : rd 0 ≠ cfg.prefixByte)
    (hl : cfg.primary.lookup (rd 0) = none) : decode cfg rd = .error (.unknownOpcode (primaryCode cfg (rd 0))) := by
  rw [decode, decodeRow_unknown hp hl]

theorem decode_primary {cfg : Config} {rd : Nat → Byte} {e : Entry} (hp : rd 0 ≠ cfg.prefixByte)
    (hl : cfg.primary.lookup (rd 0) = some e) : decode cfg rd = .ok (e.instr (join (rd 2) (rd 1))) :=
  (decode_eq_ok_iff _ _ _).mpr ⟨decodeRow_primary hp hl, instrVariant_instr_ne_none e _⟩

theorem decode_spec_prefixed {rd : Nat → Byte} (hp : rd 0 = 0xCB) :
    decode Config.spec rd = .error (.unknownOpcode ("CB" ++ hex2 (rd 1))) := by
  rw [decode_prefixed hp rfl, secondaryCode_spec]

/-- A first byte is refused with its own two digits exactly when it is neither a table's opcode nor 0xCB. -/
theorem decode_spec_unknown_iff (rd : Nat → Byte) :
    decode Config.spec rd = .error (.unknownOpcode (hex2 (rd 0))) ↔
      Config.spec.primary.lookup (rd 0) = none ∧ rd 0 ≠ Config.spec.prefixByte := by
  by_cases hp : rd 0 = Config.spec.prefixByte
  · simp [decode_spec_prefixed hp, hp, prefixed_code_ne_hex2]
  · cases hl : Config.spec.primary.lookup (rd 0) with
    | none => simp [decode_unknown hp hl, hp]
    | some e => simp [decode_primary hp hl]

/-- The format of a code string stands in failures alone. -/
theorem decodeRow_code_eq_ok_iff (cfg : Config) (f : CodeFormat) (rd : Nat → Byte) (i : Instr) :
    decodeRow { cfg with code := f } rd = .ok i ↔ decodeRow cfg rd = .ok i := by
  by_cases hp : rd 0 = cfg.prefixByte
  · simp only [decodeRow, hp, if_true]
  · cases hl : cfg.primary.lookup (rd 0) <;> simp [decodeRow, hp, hl]

end Machine

/-! ## How many first bytes are unknown (R90) -/

/-- The first bytes that are no unknown opcode. -/
def Config.firstBytes (cfg : Config) : List Byte := cfg.prefixByte :: cfg.primary.map Prod.fst

theorem lookup_eq_none_iff_not_mem {t : List (Byte × Entry)} {op : Byte} :
    t.lookup op = none ↔ op ∉ t.map Prod.fst := by
  simp only [List.lookup_eq_none_iff, List.mem_map, bne_iff_ne]
  exact ⟨fun h ⟨row, hrow, heq⟩ => h row hrow heq.symm, fun h row hrow heq => h ⟨row, hrow, heq.symm⟩⟩

/-- The test by which R90's list is counted. -/
theorem unknown_first_byte_iff (cfg : Config) (op : Byte) :
    ((cfg.primary.lookup op).isNone && op != cfg.prefixByte) = true ↔ op ∉ cfg.firstBytes := by
  rw [Bool.and_eq_true, Option.isNone_iff_eq_none, lookup_eq_none_iff_not_mem, bne_iff_ne, Config.firstBytes,
    List.mem_cons, not_or, and_comm]

theorem nodup_firstBytes {cfg : Config} (h : cfg.wellFormed = true) : cfg.firstBytes.Nodup := by
  obtain ⟨hprimary, _, hprefix⟩ := (wellFormed_iff cfg).mp h
  exact List.nodup_cons.mpr ⟨lookup_eq_none_iff_not_mem.mp hprefix, of_decide_eq_true hprimary⟩

/-- Taking distinct numbers below `n` out of `0, …, n - 1` leaves `n` less as many. -/
theorem length_filter_range_not_mem {n : Nat} {taken : List Nat} (hnodup : taken.Nodup) (hlt : ∀ k ∈ taken, k < n) :
    ((List.range n).filter (· ∉ taken)).length + taken.length = n := by
  have hperm : ((List.range n).filter (· ∉ taken) ++ taken).Perm (List.range n) := by
    refine (List.perm_ext_iff_of_nodup ?_ List.nodup_range).mpr fun k => ?_
    · exact (List.nodup_range.filter _).append hnodup fun k hk => by simpa using (List.mem_filter.mp hk).2
    · by_cases hk : k ∈ taken
      · simp [hk, hlt k hk]
      · simp [hk]
  simpa using hperm.length_eq

/-- In unambiguous tables the unknown first bytes are all but `prefixByte` and the opcodes of the primary table. -/
theorem length_filter_unknown {cfg : Config} (h : cfg.wellFormed = true) :
    ((List.range 256).filter fun n =>
      (cfg.primary.lookup (BitVec.ofNat 8 n)).isNone && BitVec.ofNat 8 n != cfg.prefixByte).length +
        (cfg.primary.length + 1) = 256 := by
  have hinj : Function.Injective (BitVec.toNat : Byte → Nat) := fun _ _ => BitVec.eq_of_toNat_eq
  have hnodup : (cfg.firstBytes.map BitVec.toNat).Nodup := (nodup_firstBytes h).map hinj
  have hlt : ∀ k ∈ cfg.firstBytes.map BitVec.toNat, k < 256 :=
    List.forall_mem_map.mpr fun op _ => op.isLt
  have hfilter : ((List.range 256).filter fun n =>
      (cfg.primary.lookup (BitVec.ofNat 8 n)).isNone && BitVec.ofNat 8 n != cfg.prefixByte) =
        (List.range 256).filter (· ∉ cfg.firstBytes.map BitVec.toNat) := by
    refine List.filter_congr fun n hn => ?_
    have hmem := List.mem_map_of_injective hinj (a := BitVec.ofNat 8 n) (l := cfg.firstBytes)
    rw [BitVec.toNat_ofNat, Nat.mod_eq_of_lt (List.mem_range.mp hn)] at hmem
    rw [Bool.eq_iff_iff, unknown_first_byte_iff, decide_eq_true_iff, hmem]
  have hcount := length_filter_range_not_mem hnodup hlt
  rwa [← hfilter, List.length_map, Config.firstBytes, List.length_cons, List.length_map] at hcount

/-! ## The bytes the decoder reads (R99) -/

theorem decodeReads_prefixed {cfg : Config} {rd : Nat → Byte} (hp : rd 0 = cfg.prefixByte) : 2 ≤ decodeReads cfg rd := by
  rw [decodeReads, if_pos hp]
  split <;> decide

theorem decodeReads_secondary_jump {cfg : Config} {rd : Nat → Byte} {k : Cond} (hp : rd 0 = cfg.prefixByte)
    (hl : cfg.secondary.lookup (rd 1) = some (.jp k)) : decodeReads cfg rd = 4 := by
  simp [decodeReads, hp, hl]

theorem decodeReads_primary_jump {cfg : Config} {rd : Nat → Byte} {k : Cond} (hp : rd 0 ≠ cfg.prefixByte)
    (hl : cfg.primary.lookup (rd 0) = some (.jp k)) : decodeReads cfg rd = 3 := by
  simp [decodeReads, hp, hl]

theorem decodeReads_pos (cfg : Config) (rd : Nat → Byte) : 0 < decodeReads cfg rd := by
  unfold decodeReads
  split <;> split <;> decide

/-- Only a jump entry's instruction depends on the target read after it. -/
theorem instr_congr {e : Entry} {t t' : Word} (h : ∀ k, e = .jp k → t = t') : e.instr t = e.instr t' := by
  cases e with
  | jp k => rw [h k rfl]
  | add r => cases r <;> rfl
  | incPair p => cases p <;> rfl
  | decPair p => cases p <;> rfl

/-- The decoder, and the number of bytes it reads, depend on those bytes alone. -/
theorem decoder_congr {cfg : Config} {rd rd' : Nat → Byte} (h : ∀ k < decodeReads cfg rd, rd' k = rd k) :
    decodeRow cfg rd' = decodeRow cfg rd ∧ decodeReads cfg rd' = decodeReads cfg rd := by
  have h0 : rd' 0 = rd 0 := h 0 (decodeReads_pos cfg rd)
  by_cases hp : rd 0 = cfg.prefixByte
  · have h1 : rd' 1 = rd 1 := h 1 (decodeReads_prefixed hp)
    refine ⟨?_, by simp only [decodeReads, h0, h1, hp, if_true]⟩
    cases hl : cfg.secondary.lookup (rd 1) with
    | none => rw [decodeRow_prefixed hp hl, decodeRow_prefixed (h0.trans hp) (h1.symm ▸ hl), h1]
    | some e =>
      rw [decodeRow_secondary hp hl, decodeRow_secondary (h0.trans hp) (h1.symm ▸ hl)]
      refine congrArg _ (instr_congr fun k he => ?_)
      have hreads : decodeReads cfg rd = 4 := decodeReads_secondary_jump hp (he ▸ hl)
      rw [h 2 (by omega), h 3 (by omega)]
  · refine ⟨?_, by simp only [decodeReads, h0, hp, if_false]⟩
    have hp' : rd' 0 ≠ cfg.prefixByte := h0.symm ▸ hp
    cases hl : cfg.primary.lookup (rd 0) with
    | none => rw [decodeRow_unknown hp hl, decodeRow_unknown hp' (h0.symm ▸ hl), h0]
    | some e =>
      rw [decodeRow_primary hp hl, decodeRow_primary hp' (h0.symm ▸ hl)]
      refine congrArg _ (instr_congr fun k he => ?_)
      have hreads : decodeReads cfg rd = 3 := decodeReads_primary_jump hp (he ▸ hl)
      rw [h 1 (by omega), h 2 (by omega)]

/-- The jumps' opcodes in the tables of this spec. -/
theorem decodeReads_spec (rd : Nat → Byte) :
    decodeReads Config.spec rd =
      if rd 0 = 0xCB then 2 else if rd 0 ∈ [0xC2#8, 0xC3#8, 0xCA#8, 0xD2#8, 0xDA#8] then 3 else 1 := by
  unfold decodeReads
  refine ite_congr rfl (fun _ => rfl) fun _ => ?_
  generalize rd 0 = op
  revert op
  decide

namespace Machine

theorem mem_readsAt {cfg : Config} {m : Memory} {addr a : Word} :
    a ∈ readsAt cfg m addr ↔ ∃ k < decodeReads cfg (bytesAt m addr), addr + BitVec.ofNat 16 k = a := by
  simp [readsAt]

/-- Two memories that agree on the bytes read at an address. -/
theorem bytesAt_of_readsAt {cfg : Config} {m m' : Memory} {addr : Word}
    (h : ∀ a ∈ readsAt cfg m addr, m'.read a = m.read a) :
    ∀ k < decodeReads cfg (bytesAt m addr), bytesAt m' addr k = bytesAt m addr k :=
  fun k hk => h _ (mem_readsAt.mpr ⟨k, hk, rfl⟩)

theorem rowAt_of_readsAt {cfg : Config} {m m' : Memory} {addr : Word}
    (h : ∀ a ∈ readsAt cfg m addr, m'.read a = m.read a) : rowAt cfg m' addr = rowAt cfg m addr :=
  (decoder_congr (bytesAt_of_readsAt h)).1

end Machine

end Sys2Proof

open Sys2Proof Sys2Proof.Machine

/-- Settles O17: what is refused with its own digits is what the primary table lacks, 0xCB aside; which bytes
those are, and how many, is read off the table of R88. -/
theorem unknownOpcodesAreRefusedByTheDecoder : Obligations.UnknownOpcodesAreRefusedByTheDecoder := by
  refine ⟨fun rd => ?_, fun rd => decode_spec_prefixed, ?_⟩
  · rw [decode_spec_unknown_iff]
    generalize rd 0 = op
    revert op
    decide
  · have hcount := length_filter_unknown wellFormed_spec
    exact Nat.add_right_cancel (hcount.trans (by decide : 256 = 237 + (Config.spec.primary.length + 1)))

/-- Settles O18: the digits by R91's lookup in the sixteen, whose default is never reached. -/
theorem codeStringsAreUpperCaseHexadecimal : Obligations.CodeStringsAreUpperCaseHexadecimal := by
  refine ⟨fun v => ?_, secondaryCode_spec, fun v w => hexByte_inj .upper, by decide, by decide, by decide, by decide⟩
  have hdigits : "0123456789ABCDEF".toList = hexDigits .upper := by decide
  rw [hex2, toList_hexByte, hexChars, hdigits, getD_hexDigits _ ' ' (div_16_lt v), getD_hexDigits _ ' ' (mod_16_lt v),
    getD_hexDigits _ _ (div_16_lt v), getD_hexDigits _ _ (mod_16_lt v)]

/-- Settles O59: the format reaches failures alone, and the encoder not at all. -/
theorem codeFormatChangesTheCodesOnly : Obligations.CodeFormatChangesTheCodesOnly := by
  refine ⟨fun cfg f rd i => ⟨decodeRow_code_eq_ok_iff cfg f rd i, ?_, rfl⟩, fun v => ?_, fun k v w => hexByte_inj k⟩
  · simp only [decode_eq_ok_iff, decodeRow_code_eq_ok_iff]
  · rw [toList_hexByte, toList_hexByte, map_toUpper_hexChars]

/-- Settles O20: the number of bytes by the first one, then their addresses. -/
theorem decodeReadsExactlyItsBytes : Obligations.DecodeReadsExactlyItsBytes := by
  intro m addr
  rw [readsAt, decodeReads_spec, bytesAt_zero]
  split
  · simp [List.range_succ]
  · split <;> simp [List.range_succ]

/-- Settles O21: the decoder sees memory through `bytesAt`, and there the bytes it reads decide. -/
theorem decodeDependsOnlyOnTheBytesItReads : Obligations.DecodeDependsOnlyOnTheBytesItReads := by
  intro cfg m m' addr h
  obtain ⟨hrow, hreads⟩ := decoder_congr (bytesAt_of_readsAt h)
  refine ⟨hrow, ?_, ?_⟩
  · rw [decodeAt, decodeAt, decode, hrow, decode]
  · rw [readsAt, hreads, readsAt]

/-- Settles O13: both blocks read the same row, and no operation of a step looks at memory. -/
theorem stepDependsOnlyOnTheFetchedBytes : Obligations.StepDependsOnlyOnTheFetchedBytes := by
  intro s t m' hbytes hstep
  have hclear := fatal_none_of_step hstep
  rcases step_cases_of_same_row (s' := { s with mem := m' }) hclear hclear (rowAt_of_readsAt hbytes) with
    ⟨r, hs, hs'⟩ | ⟨k, a16, hs, hs'⟩ | ⟨p, hs, hs'⟩ | ⟨p, hs, hs'⟩ | ⟨reason, hs, hs'⟩ <;>
    cases hs.symm.trans hstep <;> exact hs'

end

section
/-! PROOFS about the three families (spec/40_arith_accumulate.md, spec/41_jump_absolute.md, spec/42_pair_incdec.md): each
shared operation as the spec's own arithmetic on natural numbers, its frame, and the encodings. -/

namespace Sys2Proof.Machine

/-! ## `ADD A,r` (R110 to R117) -/

/-- `Add8` with every part computed on natural numbers. -/
theorem add8_eq (x y : Byte) :
    add8 x y =
      (BitVec.ofNat 8 ((x.toNat + y.toNat) % 256),
        { z := decide ((x.toNat + y.toNat) % 256 = 0)
          n := false
          h := decide (x.toNat % 16 + y.toNat % 16 > 0xF)
          c := decide (x.toNat + y.toNat > 0xFF) }) := by
  have hresult : (add8 x y).1 = BitVec.ofNat 8 ((x.toNat + y.toNat) % 256) := by
    rw [← toNat_add8_result, BitVec.ofNat_toNat, BitVec.setWidth_eq]
  have hz : (add8 x y).2.z = decide ((x.toNat + y.toNat) % 256 = 0) := by
    rw [Bool.eq_iff_iff, add8_z_iff, decide_eq_true_iff]
  rw [← hresult, ← hz, ← add8_n x y, ← add8_h x y, ← add8_c x y]

theorem addAccum_eq_refAdd (s : State) (r : Reg8) : s.addAccum r = refAdd (s.regs.get r) s := by
  rw [State.addAccum, add8_eq]
  rfl

/-- The wrap of a doubled byte is its top bit. -/
theorem add8_self_c (x : Byte) : (add8 x x).2.c = x.getLsbD 7 := by
  have hx := x.isLt
  rw [add8_c, ← BitVec.testBit_toNat, Nat.testBit_eq_decide_div_mod_eq, decide_eq_decide]
  omega

theorem add8_self_h (x : Byte) : (add8 x x).2.h = x.getLsbD 3 := by
  rw [add8_h, ← BitVec.testBit_toNat, Nat.testBit_eq_decide_div_mod_eq, decide_eq_decide]
  omega

theorem add8_self_z_iff (x : Byte) : (add8 x x).2.z = true ↔ x = 0x00 ∨ x = 0x80 := by
  have hx := x.isLt
  have hzero : x = 0x00 ↔ x.toNat = 0 := BitVec.toNat_inj.symm
  have htop : x = 0x80 ↔ x.toNat = 128 := BitVec.toNat_inj.symm
  rw [add8_z_iff, hzero, htop]
  omega

/-! ## `INC rr` and `DEC rr` (R130 to R137) -/

/-- A word's bytes are those of any number it is the remainder of. -/
theorem hi8_eq_refHigh {v : Word} {n : Nat} (h : v.toNat = n % 65536) : hi8 v = refHigh n := by
  rw [hi8_eq_ofNat, h]
  rfl

theorem lo8_eq_refLow {v : Word} {n : Nat} (h : v.toNat = n % 65536) : lo8 v = refLow n := by
  rw [lo8_eq_ofNat, h]
  rfl

/-- The pair `p` replaced by a value, pc on by 1, is `refPairStep` of any `f` that gives the value modulo 65,536. -/
theorem setPair_advance_eq_refPairStep {s : State} {p : Pair} {v : Word} {f : Nat → Nat}
    (h : v.toNat = f (s.regs.getPair p).toNat % 65536) :
    (s.setRegs (s.regs.setPair p v)).advance 1 = refPairStep f p s := by
  rw [RegFile.setPair, hi8_eq_refHigh h, lo8_eq_refLow h, RegFile.getPair, toNat_join]
  cases p <;> rfl

theorem incPair_eq_refPairStep (s : State) (p : Pair) : s.incPair p = refPairStep refInc p s :=
  setPair_advance_eq_refPairStep (BitVec.toNat_add _ _)

theorem decPair_eq_refPairStep (s : State) (p : Pair) : s.decPair p = refPairStep refDec p s := by
  refine setPair_advance_eq_refPairStep ?_
  rw [BitVec.toNat_sub, refDec, Nat.add_comm]
  rfl

theorem setPair_setPair (rf : RegFile) (p : Pair) (v w : Word) : (rf.setPair p v).setPair p w = rf.setPair p w := by
  cases p <;> rfl

/-- A pair written with its own value, whatever the way to it, is the register file. -/
theorem setPair_getPair (rf : RegFile) (p : Pair) : rf.setPair p (rf.getPair p) = rf := by
  rw [RegFile.setPair, RegFile.getPair, hi8_join, lo8_join]
  cases p <;> rfl

/-- Two register writes, each with an advance by 1: the second stays, and pc has gone on by 2. -/
theorem setRegs_advance_twice (s : State) (rf rf' : RegFile) :
    (((s.setRegs rf).advance 1).setRegs rf').advance 1 = (s.setRegs rf').setPc (s.pc + 2) :=
  congrArg (s.setRegs rf').setPc (BitVec.add_assoc s.pc 1 1)

theorem decPair_incPair (s : State) (p : Pair) : (s.incPair p).decPair p = s.setPc (s.pc + 2) := by
  refine (setRegs_advance_twice s _ _).trans ?_
  rw [incPair_regs, getPair_setPair, setPair_setPair, BitVec.add_sub_cancel, setPair_getPair]
  rfl

theorem incPair_decPair (s : State) (p : Pair) : (s.decPair p).incPair p = s.setPc (s.pc + 2) := by
  refine (setRegs_advance_twice s _ _).trans ?_
  rw [decPair_regs, getPair_setPair, setPair_setPair, BitVec.sub_add_cancel, setPair_getPair]
  rfl

/-! ## The jumps (R120 to R125) -/

theorem jumpIf_eq {s : State} {k : Cond} {holds : Prop} [Decidable holds] (h : evalCond k s.fl = true ↔ holds) (t : Word) :
    s.jumpIf k t = { s with pc := if holds then t else s.pc + 3 } := by
  simp only [State.jumpIf, h]
  rfl

/-- A jump is its opcode and the target's two bytes, low byte first. -/
theorem encode_join {i : Instr} {op hi lo : Byte}
    (h : encode Config.spec i = some [op, lo8 (join hi lo), hi8 (join hi lo)]) :
    encode Config.spec i = some [op, lo, hi] := by
  rw [h, lo8_join, hi8_join]

/-- The target is the 16-bit read after the opcode. -/
theorem join_bytesAt (m : Memory) (addr : Word) :
    join (bytesAt m addr 2) (bytesAt m addr 1) = m.readWord (addr + 1) := by
  rw [Memory.readWord, BitVec.add_assoc]
  rfl

theorem rowAt_jp {m : Memory} {addr : Word} (h : m.read addr = 0xC3) :
    rowAt Config.spec m addr = .ok (.jp (m.readWord (addr + 1))) := by
  have hfirst : bytesAt m addr 0 = 0xC3 := (bytesAt_zero m addr).trans h
  rw [← join_bytesAt]
  exact decodeRow_primary (e := .jp .always) (by rw [hfirst]; decide) (by rw [hfirst]; decide)

/-! ## The families by their instructions -/

theorem exec_of_mem_adds {i : Instr} (h : i ∈ [Instr.addAB, .addAC, .addAD, .addAE, .addAH, .addAL, .addAA]) (s : State) :
    ∃ r, exec i s = .next (s.addAccum r) := by
  fin_cases h <;> exact ⟨_, rfl⟩

theorem exec_of_mem_jumps {i : Instr} {a16 : Word} (h : i ∈ [Instr.jpNZ a16, .jpZ a16, .jpNC a16, .jpC a16, .jp a16])
    (s : State) : ∃ k, exec i s = .next (s.jumpIf k a16) := by
  fin_cases h <;> exact ⟨_, rfl⟩

theorem exec_of_mem_pairs {ip : Instr × Pair}
    (h : ip ∈ [(Instr.incBC, Pair.bc), (.incDE, .de), (.incHL, .hl), (.decBC, .bc), (.decDE, .de), (.decHL, .hl)])
    (s : State) : exec ip.1 s = .next (s.incPair ip.2) ∨ exec ip.1 s = .next (s.decPair ip.2) := by
  fin_cases h <;> simp

theorem exec_of_mem_inverses {ij : Instr × Instr}
    (h : ij ∈ [(Instr.incBC, Instr.decBC), (.incDE, .decDE), (.incHL, .decHL)]) :
    ∃ p, ∀ s, exec ij.1 s = .next (s.incPair p) ∧ exec ij.2 s = .next (s.decPair p) := by
  fin_cases h <;> exact ⟨_, fun _ => ⟨rfl, rfl⟩⟩

end Sys2Proof.Machine

open Sys2Proof Sys2Proof.Machine

/-- Settles O27: each add is the shared operation on its source, and that is `refAdd`; the encodings by evaluation. -/
theorem addInstructionsComplete : Obligations.AddInstructionsComplete := by
  refine ⟨fun s => ?_, by decide⟩
  simp [addAccum_eq_refAdd]

/-- Settles O28: `Add8` of the accumulator with itself, its flags as bits of the old value. -/
theorem addAccumulatorToItselfDoubles : Obligations.AddAccumulatorToItselfDoubles := by
  intro s t h
  cases h
  refine ⟨?_, add8_self_c _, add8_self_h _, add8_self_z_iff _⟩
  rw [Nat.two_mul]
  exact toNat_add8_result _ _

/-- Settles O29: the shared operation writes the accumulator and the flags. -/
theorem addInstructionsFrame : Obligations.AddInstructionsFrame := by
  intro s t i hi h
  obtain ⟨r, hexec⟩ := exec_of_mem_adds hi s
  cases hexec.symm.trans h
  exact ⟨fun q hq => get_set_other s.regs .a q _ hq, fun _ => rfl, rfl⟩

/-- Settles O30: the condition of each selector as the flag's value; the encodings by the target's two bytes. -/
theorem conditionalJumpsComplete : Obligations.ConditionalJumpsComplete := by
  refine ⟨fun s t => ?_, fun lo hi => ⟨encode_join rfl, encode_join rfl, encode_join rfl, encode_join rfl⟩⟩
  have hz : evalCond .nz s.fl = true ↔ s.fl.z = false := by simp [evalCond]
  have hc : evalCond .nc s.fl = true ↔ s.fl.c = false := by simp [evalCond]
  exact ⟨congrArg Host.Outcome.next (jumpIf_eq hz t), congrArg Host.Outcome.next (jumpIf_eq (k := .z) Iff.rfl t),
    congrArg Host.Outcome.next (jumpIf_eq hc t), congrArg Host.Outcome.next (jumpIf_eq (k := .c) Iff.rfl t)⟩

/-- Settles O31: the jump sets pc alone, to pc itself no less; the two addresses after 0xFFFE are 0xFFFF and 0x0000. -/
theorem unconditionalJumpCompletes : Obligations.UnconditionalJumpCompletes :=
  ⟨fun _ _ => rfl, fun _ => rfl, fun _ _ => encode_join rfl, fun _ => rowAt_jp⟩

/-- Settles O32: the shared operation writes pc alone. -/
theorem jumpsFrame : Obligations.JumpsFrame := by
  intro s t a16 i hi h
  obtain ⟨k, hexec⟩ := exec_of_mem_jumps hi s
  cases hexec.symm.trans h
  exact ⟨fun _ => rfl, rfl, fun _ => rfl, rfl⟩

/-- Settles O33: each is the shared operation on its pair, and that is `refPairStep`; the encodings by evaluation. -/
theorem pairInstructionsComplete : Obligations.PairInstructionsComplete := by
  refine ⟨fun s => ?_, by decide⟩
  simp [incPair_eq_refPairStep, decPair_eq_refPairStep]

/-- Settles O34: both shared operations write the pair and pc. -/
theorem pairInstructionsFrame : Obligations.PairInstructionsFrame := by
  intro s t ip hip h
  rcases exec_of_mem_pairs hip s with hexec | hexec <;> cases hexec.symm.trans h <;>
    exact ⟨fun _ => get_setPair_other s.regs ip.2 _, rfl, fun _ => rfl, rfl⟩

/-- Settles O35: the second operation writes the pair's own old value over the first one's. -/
theorem incrementAndDecrementAreInverse : Obligations.IncrementAndDecrementAreInverse := by
  intro s ij hij
  obtain ⟨p, hexec⟩ := exec_of_mem_inverses hij
  exact ⟨⟨_, _, (hexec s).1, (hexec _).2, decPair_incPair s p⟩, ⟨_, _, (hexec s).2, (hexec _).1, incPair_decPair s p⟩⟩

end

section
/-! PROOFS about the step as the spec writes it (spec/43_step_and_dispatch.md R140, R141, R147, spec/70_reset_and_hazards.md
R180, R184): the row at pc by its encoding and by its first byte, the next pc, `Step` and `Dispatch` on plain numbers. -/

namespace Sys2Proof.Machine

/-! ## The row at pc by its bytes -/

theorem rowAt_of_encode {i : Instr} {bs : List Byte} {m : Memory} {addr : Word} (henc : encode Config.spec i = some bs)
    (hbytes : ∀ k (hk : k < bs.length), m.read (addr + BitVec.ofNat 16 k) = bs[k]) :
    rowAt Config.spec m addr = .ok i :=
  decodeRow_of_encode wellFormed_spec (wellFormed_instr i) henc hbytes

theorem decodeRow_of_decodeTableWord {nbits w : Nat} {i : Instr} (h : decodeTableWord nbits w = some i) :
    decodeRow Config.spec (tableByte nbits w) = .ok i := by
  unfold decodeTableWord at h
  split at h
  case h_1 j hj =>
    cases h
    exact hj
  case h_2 => cases h

theorem decodeReads_spec_le_three (rd : Nat → Byte) : decodeReads Config.spec rd ≤ 3 := by
  rw [decodeReads_spec]
  split_ifs <;> decide

/-- The three bytes placed at pc are all the decoder reads of the word. -/
theorem rowAt_withFetchWord {s : State} (hmem : s.mem.wf = true) (nbits w : Nat) :
    rowAt Config.spec (s.withFetchWord nbits w).mem s.pc = decodeRow Config.spec (tableByte nbits w) := by
  refine (decoder_congr fun k hk => ?_).1
  have hk3 : k < ((List.range 3).map (tableByte nbits w)).length := by
    simpa using hk.trans_le (decodeReads_spec_le_three _)
  have hread := read_writeBytes_of_lt hmem s.pc (by simp [memSize]) hk3
  rwa [List.getElem_map, List.getElem_range] at hread

theorem rowAt_prefixed {m : Memory} {addr : Word} (h : m.read addr = 0xCB) :
    rowAt Config.spec m addr = .ok (.prefixCB (m.read (addr + 1))) :=
  decodeRow_prefixed (rd := bytesAt m addr) ((bytesAt_zero m addr).trans h) rfl

theorem rowAt_unknown {m : Memory} {addr : Word} (hp : m.read addr ≠ 0xCB)
    (hl : Config.spec.primary.lookup (m.read addr) = none) :
    rowAt Config.spec m addr = .error (.unknownOpcode (hex2 (m.read addr))) := by
  rw [← bytesAt_zero] at hp hl ⊢
  rw [rowAt, decodeRow_unknown hp hl, primaryCode_spec]

/-! ## The spec's own decoder beside the model's (R86) -/

/-- A completed entry is the instruction of the variant the spec's own decoder completes it to. -/
theorem instrVariant_instr (e : Entry) (m : Memory) (at16 : Word) :
    instrVariant (e.instr (m.readWord at16)) = some (refDecode.complete m e at16) := by
  cases e with
  | add r => cases r <;> rfl
  | jp k => cases k <;> rfl
  | incPair p => cases p <;> rfl
  | decPair p => cases p <;> rfl

/-- The two decoders fail alike, and otherwise the spec's answers the variant of the model's instruction. -/
theorem refDecode_cases (m : Memory) (addr : Word) :
    (∃ f, decodeAt Config.spec m addr = .error f ∧ refDecode Config.spec m addr = .error f) ∨
      ∃ i v, decodeAt Config.spec m addr = .ok i ∧ instrVariant i = some v ∧ refDecode Config.spec m addr = .ok v := by
  have hzero := bytesAt_zero m addr
  by_cases hp : m.read addr = Config.spec.prefixByte
  · refine .inl ⟨_, decode_prefixed (hzero.trans hp) rfl, ?_⟩
    rw [refDecode, if_pos hp]
    rfl
  · have hp' : bytesAt m addr 0 ≠ Config.spec.prefixByte := hzero.symm ▸ hp
    cases hl : Config.spec.primary.lookup (m.read addr) with
    | none =>
      refine .inl ⟨_, decode_unknown hp' (hzero.symm ▸ hl), ?_⟩
      rw [refDecode, if_neg hp, hl, hzero]
    | some e =>
      refine .inr ⟨_, refDecode.complete m e (addr + 1), decode_primary hp' (hzero.symm ▸ hl), ?_, ?_⟩
      · rw [join_bytesAt, instrVariant_instr]
      · rw [refDecode, if_neg hp, hl]

/-! ## The step by the answer of `Decode` (R140) -/

theorem step_of_decodeAt_ok {s : State} {i : Instr} (h : s.fatal = none) (hdec : decodeAt Config.spec s.mem s.pc = .ok i) :
    step s = exec i s :=
  step_of_rowAt h ((decode_eq_ok_iff _ _ _).mp hdec).1

theorem step_of_decodeAt_error {s : State} {f : DecodeFailure} (h : s.fatal = none)
    (hdec : decodeAt Config.spec s.mem s.pc = .error f) : step s = .next (s.raiseFatal (failureReason f)) := by
  rcases step_cases_decodeAt h with ⟨g, hg, hstep⟩ | ⟨i, t, hi, _⟩
  · cases hg.symm.trans hdec
    exact hstep
  · cases hi.symm.trans hdec

/-- Every instruction with a variant is dispatched to the spec's arithmetic on plain numbers (R141). -/
theorem exec_eq_refDispatch {i : Instr} {v : Variant} (h : instrVariant i = some v) (s : State) :
    exec i s = .next (refDispatch v s) := by
  cases i with
  | prefixCB sub => cases h
  | jpNZ t | jp t | jpZ t | jpNC t | jpC t => cases h; rfl
  | addAB | addAC | addAD | addAE | addAH | addAL | addAA => cases h; simp [refDispatch, addAccum_eq_refAdd]
  | incBC | incDE | incHL => cases h; simp [refDispatch, incPair_eq_refPairStep]
  | decBC | decDE | decHL => cases h; simp [refDispatch, decPair_eq_refPairStep]

theorem refStep_of_error {s : State} {f : DecodeFailure} (h : refDecode Config.spec s.mem s.pc = .error f) :
    refStep s = .fatal (failureReason f) := by
  rw [refStep, h]
  rfl

theorem refStep_of_ok {s : State} {v : Variant} (h : refDecode Config.spec s.mem s.pc = .ok v) :
    refStep s = .next (refDispatch v s) := by
  rw [refStep, h]

/-- The two outcomes of R9: the spec's step and the model's go the same way. -/
theorem step_refStep_cases {s : State} (h : s.fatal = none) :
    (∃ reason, refStep s = .fatal reason ∧ step s = .next (s.raiseFatal reason)) ∨
      ∃ t, refStep s = .next t ∧ step s = .next t ∧ t.fatal = none := by
  rcases refDecode_cases s.mem s.pc with ⟨f, hdec, href⟩ | ⟨i, v, hdec, hi, href⟩
  · exact .inl ⟨_, refStep_of_error href, step_of_decodeAt_error h hdec⟩
  · have hstep := (step_of_decodeAt_ok h hdec).trans (exec_eq_refDispatch hi s)
    obtain ⟨t, hexec, hfatal⟩ := exec_keeps_latch (i := i) (by simp [hi]) s
    cases hexec.symm.trans (exec_eq_refDispatch hi s)
    exact .inr ⟨_, refStep_of_ok href, hstep, hfatal.trans h⟩

end Sys2Proof.Machine

open Sys2Proof Sys2Proof.Machine

/-- Settles O37: the bytes at pc decode to the instruction they encode. -/
theorem stepRunsTheEncodedInstruction : Obligations.StepRunsTheEncodedInstruction := fun _ _ _ h _ henc hbytes =>
  step_of_rowAt h (rowAt_of_encode henc hbytes)

/-- Settles O14: the one byte of the encoding is the byte just written. -/
theorem hostWriteIsSeenByTheNextFetch : Obligations.HostWriteIsSeenByTheNextFetch := by
  intro s i op hmem h henc
  refine step_of_rowAt h (rowAt_of_encode henc fun k hk => ?_)
  obtain rfl : k = 0 := Nat.lt_one_iff.mp hk
  exact (congrArg _ (BitVec.add_zero s.pc)).trans (read_write_same hmem s.pc op)

/-- Settles O38: the placed bytes decode as the table word does. -/
theorem stepRunsThePlacedWord : Obligations.StepRunsThePlacedWord := fun s nbits w _ h hmem hword =>
  step_of_rowAt (s := s.withFetchWord nbits w) h
    ((rowAt_withFetchWord hmem nbits w).trans (decodeRow_of_decodeTableWord hword))

/-- Settles O40: the operation of each constructor, its pc as the constructor's variant says. -/
theorem nextProgramCounter : Obligations.NextProgramCounter := by
  intro i s t h
  cases i with
  | prefixCB sub => cases h; rfl
  | jpNZ a16 | jp a16 | jpZ a16 | jpNC a16 | jpC a16 => cases h; rfl
  | addAB | addAC | addAD | addAE | addAH | addAL | addAA => cases h; rfl
  | incBC | decBC | incDE | decDE | incHL | decHL => cases h; rfl

/-- Settles O41: the decoders answer alike, and so do the dispatchers. -/
theorem stepMatchesTheSpecsStep : Obligations.StepMatchesTheSpecsStep := by
  intro s h
  rcases step_refStep_cases h with ⟨reason, href, hstep⟩ | ⟨t, href, hstep, hfatal⟩ <;> rw [href]
  · refine ⟨stepOutcome_eq_fatal.mpr ⟨_, hstep, rfl⟩, nofun, fun _ heq => ?_⟩
    cases heq
    exact hstep
  · refine ⟨stepOutcome_eq_next.mpr ⟨hstep, hfatal⟩, fun _ heq => ?_, nofun⟩
    cases heq
    exact hstep

/-- Settles O47: the decoder's failure is the fatal reason. -/
theorem unknownFirstByteStopsTheMachine : Obligations.UnknownFirstByteStopsTheMachine := fun _ h hp hl =>
  step_of_rowAt_error h (rowAt_unknown hp hl)

/-- Settles O48: the byte 0xCB at pc is the row `prefixCB`, whose meaning is the fatal stop. -/
theorem prefixedOpcodeStopsTheMachine : Obligations.PrefixedOpcodeStopsTheMachine := by
  have hexec (sub : Byte) (s : State) :
      exec (.prefixCB sub) s = .next { s with fatal := some (.unknownOpcode ("CB" ++ hex2 sub)) } := by
    rw [exec_prefixCB, secondaryCode_spec]
    rfl
  exact ⟨hexec, fun s h hp => (step_of_rowAt h (rowAt_prefixed hp)).trans (hexec _ s)⟩

/-- Settles O50: the state after reset, piece by piece, by evaluation. -/
theorem resetLeavesEveryPieceOfStateAtItsValue : Obligations.ResetLeavesEveryPieceOfStateAtItsValue := by
  refine ⟨fun r => ?_, rfl, by decide, fun p => ?_, by decide, fun _ => rfl, rfl, rfl, transact_reset⟩
  · cases r <;> rfl
  · cases p <;> rfl

/-- Settles O52: the first byte of the empty memory is 0x00, which no table row has. -/
theorem unloadedCoreStopsAtOnce : Obligations.UnloadedCoreStopsAtOnce := by
  have hcode : hex2 (State.reset.mem.read State.reset.pc) = "00" := by decide
  rw [Obligations.UnloadedCoreStopsAtOnce, ← hcode]
  exact unknownFirstByteStopsTheMachine State.reset rfl (by decide) rfl

end

section
/-! PROOFS about the run of `n` steps (spec/43_step_and_dispatch.md R146): one step at a time, then by induction on the
number of steps. -/

namespace Sys2Proof.Machine

theorem isLaunch_iff (s : State) : s.isLaunch = true ↔ s.fatal = none := Option.isNone_iff_eq_none

theorem run_zero_of_clear {s : State} (h : s.fatal = none) : run 0 s = ⟨s, none, 0⟩ := by
  rw [run_zero, h]

/-- The first step of a run goes on to a clear state and is counted, or it is fatal and ends the run uncounted. -/
theorem run_succ_cases {s : State} (h : s.fatal = none) :
    (∃ t, t.fatal = none ∧ ∀ n, run (n + 1) s = (run n t).afterStep) ∨
      ∃ reason, stepOutcome s = some (.fatal reason) ∧ ∀ n, run (n + 1) s = ⟨s.raiseFatal reason, some reason, 0⟩ := by
  rcases step_refStep_cases h with ⟨reason, _, hstep⟩ | ⟨t, _, hstep, hclear⟩
  · exact .inr ⟨reason, stepOutcome_eq_fatal.mpr ⟨_, hstep, rfl⟩, fun n => run_succ_fatal n hstep rfl⟩
  · exact .inl ⟨t, hclear, fun n => run_succ_next n hstep hclear⟩

/-! ## By induction on the number of steps -/

theorem run_add (m n : Nat) {s : State} (h : s.fatal = none) :
    run (m + n) s =
      if (run m s).stopped = none then
        { run n (run m s).final with completed := (run m s).completed + (run n (run m s).final).completed }
      else run m s := by
  induction m generalizing s with
  | zero => simp [run_zero_of_clear h]
  | succ m ih =>
    rw [Nat.add_right_comm]
    rcases run_succ_cases h with ⟨t, hclear, hrun⟩ | ⟨reason, _, hrun⟩
    · rw [hrun, hrun, ih hclear]
      split <;> simp_all [RunResult.afterStep, Nat.add_right_comm]
    · rw [hrun, hrun]
      rfl

/-- A run is stopped with the reason in the latch of the state it reached. -/
theorem run_stopped_eq_latch (n : Nat) {s : State} (h : s.fatal = none) : (run n s).stopped = (run n s).final.fatal := by
  induction n generalizing s with
  | zero => rfl
  | succ n ih =>
    rcases run_succ_cases h with ⟨t, hclear, hrun⟩ | ⟨reason, _, hrun⟩ <;> rw [hrun]
    · exact ih hclear
    · rfl

/-- A run completes all its steps, or it is stopped after fewer. -/
theorem run_completed_cases (n : Nat) {s : State} (h : s.fatal = none) :
    ((run n s).stopped = none ∧ (run n s).completed = n) ∨ ((run n s).stopped ≠ none ∧ (run n s).completed < n) := by
  induction n generalizing s with
  | zero => exact .inl ⟨h, rfl⟩
  | succ n ih =>
    rcases run_succ_cases h with ⟨t, hclear, hrun⟩ | ⟨reason, _, hrun⟩ <;> rw [hrun]
    · exact (ih hclear).imp (And.imp_right (congrArg (· + 1))) (And.imp_right Nat.succ_lt_succ)
    · exact .inr ⟨nofun, n.succ_pos⟩

/-- The step that stopped a run was taken from the state the steps before it reached. -/
theorem fatal_step_of_run_stopped {n : Nat} {s : State} {reason : FatalReason} (h : s.fatal = none)
    (hstopped : (run n s).stopped = some reason) :
    ∃ k u, k < n ∧ run k s = ⟨u, none, k⟩ ∧ stepOutcome u = some (.fatal reason) ∧
      run n s = ⟨u.raiseFatal reason, some reason, k⟩ := by
  induction n generalizing s with
  | zero => cases h.symm.trans hstopped
  | succ n ih =>
    rcases run_succ_cases h with ⟨t, hclear, hrun⟩ | ⟨reason', hfatal, hrun⟩ <;> rw [hrun] at hstopped
    · obtain ⟨k, u, hk, hreach, hfatal, hend⟩ := ih hclear hstopped
      refine ⟨k + 1, u, Nat.succ_lt_succ hk, ?_, hfatal, ?_⟩
      · rw [hrun, hreach]
        rfl
      · rw [hrun, hend]
        rfl
    · cases hstopped
      exact ⟨0, s, n.succ_pos, run_zero_of_clear h, hfatal, hrun n⟩

theorem run_of_step_self {s : State} (h : s.fatal = none) (hstep : step s = .next s) (n : Nat) : run n s = ⟨s, none, n⟩ := by
  induction n with
  | zero => exact run_zero_of_clear h
  | succ n ih => rw [run_succ_next n hstep h, ih, RunResult.afterStep]

/-! ## The jump to its own address -/

theorem step_jp_self {s : State} (h : s.fatal = none) (hop : s.mem.read s.pc = 0xC3)
    (htarget : s.mem.readWord (s.pc + 1) = s.pc) : step s = .next s := by
  rw [step_of_rowAt h (rowAt_jp hop), htarget]
  rfl

end Sys2Proof.Machine

open Sys2Proof Sys2Proof.Machine

/-- Settles O55: by induction on the first number of steps. -/
theorem runsCompose : Obligations.RunsCompose := fun m n s h => run_add m n ((isLaunch_iff s).mp h)

/-- Settles O56: the first step by its outcome, the stop, the latch and the count by induction on the number of steps. -/
theorem runsStopOnlyByAFatalStep : Obligations.RunsStopOnlyByAFatalStep := by
  intro n s hlaunch
  have h := (isLaunch_iff s).mp hlaunch
  refine ⟨run_zero_of_clear h, fun t hnext => ?_, fun reason hfatal => ?_, fun reason => ⟨fatal_step_of_run_stopped h, ?_⟩,
    run_stopped_eq_latch n h, ?_⟩
  · obtain ⟨hstep, hclear⟩ := stepOutcome_eq_next.mp hnext
    exact run_succ_next n hstep hclear
  · obtain ⟨t, hstep, hlatch⟩ := stepOutcome_eq_fatal.mp hfatal
    rw [run_succ_fatal n hstep hlatch, eq_raiseFatal_of_step hstep hlatch]
    rfl
  · rintro ⟨k, u, _, _, _, hend⟩
    rw [hend]
  · rcases run_completed_cases n h with ⟨hnone, hcount⟩ | ⟨hsome, hcount⟩
    · exact ⟨iff_of_true hnone hcount, hcount.le⟩
    · exact ⟨iff_of_false hsome hcount.ne, hcount.le⟩

/-- Settles O57: the step answers the state it was taken from, so every run of it does. -/
theorem jumpToItselfStaysForEver : Obligations.JumpToItselfStaysForEver := by
  intro s h hop htarget
  have hstep := step_jp_self h hop htarget
  have hrun := run_of_step_self h hstep
  exact ⟨hstep, fun n => ⟨hrun n, congrArg RunResult.stopped (hrun n)⟩⟩

end
